-- ==== Sys2Proof/Word.lean ====
section
/-! DEFINITION. The widths of the core's registers and ports (`10_state.md` R14, R20, R21, R23,
R25; `30_encoding.md` R53). A bit vector stands for what the spec itself gives a bit width. -/

namespace Sys2Proof

/-- One byte of `PBUF`, `CW` or the port `pw_data` (R25, R31). -/
abbrev Byte := BitVec 8

/-- The 4-bit `PHASE` register and the 4-bit format-H vector (R20, R54). -/
abbrev Nibble := BitVec 4

/-- The 15-bit format-information word, bit 0 the least significant (R68). -/
abbrev FormatWord := BitVec 15

end Sys2Proof
end

