-- ==== Sys2Proof/Config.lean ====
section
/-! DEFINITION. The configuration of the core (`00_scope.md` R7; `10_state.md` R30; `20_memory.md`
R40 to R43; `46_format.md` R134), its fixed parameters, and the free values that stand for the
spec's `any` (`00_scope.md` R10). The default tables are in `Machine/Tables.lean`. -/

namespace Sys2Proof

/-- The parameter `FMT_COPY2`: how much of the second copy of the format word is written (R134). -/
inductive FmtCopy2 where
  | full
  | literal
deriving DecidableEq, Repr

/-- The configuration of one core: the three constant tables and `FMT_COPY2` (R30). It is fixed
for the machine; no instruction writes it. The types carry the bounds the spec states for every
entry: a capacity is at most 271 (R41 item 3), a format word has 15 bits (R42), a coordinate is
at most 56 (R31, the row of `ALIGN`). -/
structure Config where
  /-- `CAP[v][e]` at row `v - 1`, column `e` (R41). -/
  cap : Vector (Vector (Fin 272) 4) 10
  /-- `FMT[e][m]` (R42). -/
  fmt : Vector (Vector FormatWord 8) 4
  /-- `ALIGN[v]` at row `v - 1` (R43); that a list holds at most 3 numbers (R31) is in
  `configLegal`. -/
  align : Vector (List (Fin 57)) 10
  /-- `FMT_COPY2` (R134). -/
  fmtCopy2 : FmtCopy2
deriving DecidableEq, Repr

namespace Config

/-- `OVERHEAD`, the bytes added to the payload length in the sizer's test (R7). -/
abbrev overhead : Nat := 3

/-- The depth of `PBUF`, `PMAX` (R7, R31). -/
abbrev pbufDepth : Nat := 268

/-- The depth of `CW`, `CWMAX` (R7, R31). -/
abbrev cwDepth : Nat := 271

/-- The side of the grid storage, `NMAX` (R7, R36). -/
abbrev gridSide : Nat := 57

/-- `ALIGN_EDGE` (R7, R100). -/
abbrev alignEdge : Nat := 10

/-- FREE VALUE (log 5): what a byte of `PBUF` holds that the host has not written since the last
`RESET` (R29, U7, U8), for the number of that `RESET` and the byte's index. -/
opaque freePbuf : Nat → Nat → Byte

/-- FREE VALUE (log 5): what a byte of `CW` holds that nothing has written since the last `RESET`
(R29, U7). -/
opaque freeCw : Nat → Nat → Byte

/-- FREE VALUE (log 5): what a cell of `MG` holds that nothing has written since the last `RESET`
(R29, U7). -/
opaque freeMg : Nat → Nat → Bool

/-- FREE VALUE (log 5): what a cell of `FG` holds that nothing has written since the last `RESET`
(R29, U7). -/
opaque freeFg : Nat → Nat → Bool

/-- FREE VALUE (log 6): the value of `rd_dark` where R79 says `any` (U9), for the number of such
reads so far. -/
opaque freeRdDark : Nat → Bool

end Config

end Sys2Proof
end

