-- ==== Sys2Proof/Syntax.lean ====
section
/-! DEFINITION. The syntax of the core: the two encoded formats and the read port
(`30_encoding.md` R53), the lines of a trace (R71), and the instructions, one constructor for each
row of `opcode_table.json`. -/

namespace Sys2Proof

/-- What the host presents at one host step: the format-H vector `h = (rst, clear, start, pw_en)`,
`rst` in bit 3, and the operand ports of R55. -/
structure HostPorts where
  h      : Nibble
  plen   : BitVec 16
  pwAddr : BitVec 9
  pwData : Byte
deriving DecidableEq, Repr

/-- One line of a trace (R71): a host event, a read of the grid port, or one step of the
sequencer. -/
inductive Line where
  | host (p : HostPorts)
  | read (x y : BitVec 6)
  | seq
deriving DecidableEq, Repr

/-- What one step of the machine decodes: a format-H presentation, the value of `PHASE`
(format S), or the coordinates on the read port. -/
inductive Fetched where
  | formatH (p : HostPorts)
  | formatS (phase : Nibble)
  | readPort (x y : BitVec 6)
deriving DecidableEq, Repr

/-- The two encoded formats of the opcode table. -/
inductive Format where
  | H
  | S
deriving DecidableEq, Repr

/-- A row of the opcode table that has an encoding: a word matches it when it agrees with
`pattern` on the bits of `mask`. -/
structure Row where
  mnemonic : String
  format   : Format
  mask     : Nibble
  pattern  : Nibble
deriving DecidableEq, Repr

/-- Why a trace word (log 8) is not decoded. -/
inductive WordReject where
  /-- The format field is none of 0 (S), 1 (H), 2 (read port). -/
  | unknownFormat (tag : Nat)
  /-- A bit is set above the format's last field. -/
  | strayBits (tag : Nat)
deriving DecidableEq, Repr

/-- The instructions. A length, a byte index and a coordinate are numbers, as the trace notation
writes them (R71); that they fit their ports (R55, R25) is `Instr.wellFormed`. -/
inductive Instr where
  | reset
  | clear
  | start (n : Nat)
  | pwrite (a : Nat) (d : Byte)
  | noph
  | create
  | pattern
  | encode
  | place
  | mask
  | format
  | waitIdle
  | waitFormatEmbedded
  | waitFailed
  | reserved9
  | reserved10
  | reserved11
  | reserved12
  | reserved13
  | reserved14
  | reserved15
  | rdcell (x y : Nat)
deriving DecidableEq, Repr

end Sys2Proof
end

