-- ==== Sys2Proof/WellFormed.lean ====
section
/-! DEFINITION. Well-formed instructions: every operand fits its port (`30_encoding.md` R55,
`10_state.md` R25). No other value is illegal to present: `n = 0`, `n > 268` and
`pw_addr` 268 to 511 are legal operands (R70). -/

namespace Sys2Proof

/-- Each operand fits its port: `plen` 16 bits, `pw_addr` 9 bits, `rd_x` and `rd_y` 6 bits. -/
def Instr.wellFormed : Instr → Bool
  | .start n => n < 65536
  | .pwrite a _ => a < 512
  | .rdcell x y => x < 64 && y < 64
  | .reset | .clear | .noph => true
  | .create | .pattern | .encode | .place | .mask | .format => true
  | .waitIdle | .waitFormatEmbedded | .waitFailed => true
  | .reserved9 | .reserved10 | .reserved11 | .reserved12 => true
  | .reserved13 | .reserved14 | .reserved15 => true

end Sys2Proof
end

