-- ==== Sys2Proof/Decode.lean ====
section
/-! DEFINITION. The phase codes (`30_encoding.md` R57), the two decoders and the read port
(R54 to R58, R70; `40_host_events.md` R79), the encoder written from the same tables, the rows of
`opcode_table.json`, and the trace words by which one number stands for what a step decodes
(log 8). Every vector and every phase value decodes (R56, R70); a trace word is rejected by
name. -/

namespace Sys2Proof

namespace Phase

/-- `0000`: no symbol; the host may load a payload (R57). -/
abbrev idle : Nibble := 0#4
/-- `0001`: `START` accepted, `CREATE` pending (R57). -/
abbrev started : Nibble := 1#4
/-- `0010`: symbol created, grids cleared (R57). -/
abbrev uninit : Nibble := 2#4
/-- `0011`: function patterns drawn (R57). -/
abbrev patternsPlaced : Nibble := 3#4
/-- `0100`: `CW` holds the byte sequence (R57). -/
abbrev dataEncoded : Nibble := 4#4
/-- `0101`: stream written into the grid (R57). -/
abbrev dataPlaced : Nibble := 5#4
/-- `0110`: best mask applied, `MASK` valid (R57). -/
abbrev masked : Nibble := 6#4
/-- `0111`: grid complete (R57). -/
abbrev formatEmbedded : Nibble := 7#4
/-- `1000`: terminal failure, `ERR` valid (R57). -/
abbrev failed : Nibble := 8#4

end Phase

/-- Decode of format H: the highest set bit wins, lower bits are ignored (R56). -/
def decodeH (p : HostPorts) : Instr :=
  if p.h.getLsbD 3 then .reset
  else if p.h.getLsbD 2 then .clear
  else if p.h.getLsbD 1 then .start p.plen.toNat
  else if p.h.getLsbD 0 then .pwrite p.pwAddr.toNat p.pwData
  else .noph

/-- Decode of format S: the operation is selected by `PHASE` alone (R58); 9 to 15 are reserved
(R70). -/
def decodeS (phase : Nibble) : Instr :=
  match phase.toNat with
  | 0 => .waitIdle
  | 1 => .create
  | 2 => .pattern
  | 3 => .encode
  | 4 => .place
  | 5 => .mask
  | 6 => .format
  | 7 => .waitFormatEmbedded
  | 8 => .waitFailed
  | 9 => .reserved9
  | 10 => .reserved10
  | 11 => .reserved11
  | 12 => .reserved12
  | 13 => .reserved13
  | 14 => .reserved14
  | _ => .reserved15

/-- Decode of whatever one step presents: format H, format S or the read port. -/
def decode : Fetched → Instr
  | .formatH p => decodeH p
  | .formatS phase => decodeS phase
  | .readPort x y => .rdcell x.toNat y.toNat

/-- A host presentation of the vector `h` with every operand port at zero. -/
def HostPorts.plain (h : Nibble) : HostPorts := ⟨h, 0, 0, 0⟩

/-- Encode: the presentation, phase value or port coordinates that stand for an instruction
(R54 to R58, R70, R79). Ignored strobe bits and unused operand ports are zero. -/
def encode : Instr → Fetched
  | .reset => .formatH (.plain 0b1000#4)
  | .clear => .formatH (.plain 0b0100#4)
  | .start n => .formatH ⟨0b0010#4, BitVec.ofNat 16 n, 0, 0⟩
  | .pwrite a d => .formatH ⟨0b0001#4, 0, BitVec.ofNat 9 a, d⟩
  | .noph => .formatH (.plain 0b0000#4)
  | .create => .formatS 0b0001#4
  | .pattern => .formatS 0b0010#4
  | .encode => .formatS 0b0011#4
  | .place => .formatS 0b0100#4
  | .mask => .formatS 0b0101#4
  | .format => .formatS 0b0110#4
  | .waitIdle => .formatS 0b0000#4
  | .waitFormatEmbedded => .formatS 0b0111#4
  | .waitFailed => .formatS 0b1000#4
  | .reserved9 => .formatS 0b1001#4
  | .reserved10 => .formatS 0b1010#4
  | .reserved11 => .formatS 0b1011#4
  | .reserved12 => .formatS 0b1100#4
  | .reserved13 => .formatS 0b1101#4
  | .reserved14 => .formatS 0b1110#4
  | .reserved15 => .formatS 0b1111#4
  | .rdcell x y => .readPort (BitVec.ofNat 6 x) (BitVec.ofNat 6 y)

/-- The rows of `opcode_table.json` that have an encoding, in the table's order. -/
def opcodeRows : List Row :=
  [⟨"RESET", .H, 0x8#4, 0x8#4⟩, ⟨"CLEAR", .H, 0xC#4, 0x4#4⟩, ⟨"START", .H, 0xE#4, 0x2#4⟩,
   ⟨"PWRITE", .H, 0xF#4, 0x1#4⟩, ⟨"NOPH", .H, 0xF#4, 0x0#4⟩] ++
  [⟨"CREATE", .S, 0xF#4, 0x1#4⟩, ⟨"PATTERN", .S, 0xF#4, 0x2#4⟩, ⟨"ENCODE", .S, 0xF#4, 0x3#4⟩,
   ⟨"PLACE", .S, 0xF#4, 0x4#4⟩, ⟨"MASK", .S, 0xF#4, 0x5#4⟩, ⟨"FORMAT", .S, 0xF#4, 0x6#4⟩] ++
  [⟨"WAIT", .S, 0xF#4, 0x0#4⟩, ⟨"WAIT", .S, 0xF#4, 0x7#4⟩, ⟨"WAIT", .S, 0xF#4, 0x8#4⟩] ++
  [⟨"RESERVED", .S, 0xF#4, 0x9#4⟩, ⟨"RESERVED", .S, 0xF#4, 0xA#4⟩,
   ⟨"RESERVED", .S, 0xF#4, 0xB#4⟩, ⟨"RESERVED", .S, 0xF#4, 0xC#4⟩,
   ⟨"RESERVED", .S, 0xF#4, 0xD#4⟩, ⟨"RESERVED", .S, 0xF#4, 0xE#4⟩,
   ⟨"RESERVED", .S, 0xF#4, 0xF#4⟩]

/-- The vector `v` presented in format `f` matches the row. -/
def Row.accepts (r : Row) (f : Format) (v : Nibble) : Bool :=
  r.format == f && (v &&& r.mask) == r.pattern

/-- The mnemonic of an instruction's row. -/
def Instr.mnemonic : Instr → String
  | .reset => "RESET"
  | .clear => "CLEAR"
  | .start _ => "START"
  | .pwrite _ _ => "PWRITE"
  | .noph => "NOPH"
  | .create => "CREATE"
  | .pattern => "PATTERN"
  | .encode => "ENCODE"
  | .place => "PLACE"
  | .mask => "MASK"
  | .format => "FORMAT"
  | .waitIdle | .waitFormatEmbedded | .waitFailed => "WAIT"
  | .reserved9 | .reserved10 | .reserved11 | .reserved12 => "RESERVED"
  | .reserved13 | .reserved14 | .reserved15 => "RESERVED"
  | .rdcell _ _ => "RDCELL"

/-- The format and vector of what is fetched; the read port has none. -/
def Fetched.vector : Fetched → Option (Format × Nibble)
  | .formatH p => some (.H, p.h)
  | .formatS phase => some (.S, phase)
  | .readPort _ _ => none

/-- What is fetched matches a row of the opcode table that has the mnemonic `m`; the read port is the
one row without an encoding (R79). -/
def Fetched.inTable (f : Fetched) (m : String) : Bool :=
  match f.vector with
  | some (fmt, v) => opcodeRows.any fun r => r.mnemonic == m && r.accepts fmt v
  | none => m == "RDCELL"

/-- The `len` bits of `w` from bit `lo` up. -/
def wordField (w lo len : Nat) : Nat := w / 2 ^ lo % 2 ^ len

/-- A trace word read (log 8). Bits 3..0 are the vector and bits 7..4 the format: 0 is format S,
1 is format H with `plen` in bits 23..8, `pw_addr` in 32..24 and `pw_data` in 40..33, 2 is the read
port with `rd_x` in bits 13..8 and `rd_y` in 19..14 (its vector is 0). -/
def fetchedOfWord (w : Nat) : Except WordReject Fetched :=
  match wordField w 4 4 with
  | 0 =>
    if w / 2 ^ 8 = 0 then .ok (.formatS (BitVec.ofNat 4 (wordField w 0 4)))
    else .error (.strayBits 0)
  | 1 =>
    if w / 2 ^ 41 = 0 then
      .ok (.formatH ⟨BitVec.ofNat 4 (wordField w 0 4), BitVec.ofNat 16 (wordField w 8 16),
        BitVec.ofNat 9 (wordField w 24 9), BitVec.ofNat 8 (wordField w 33 8)⟩)
    else .error (.strayBits 1)
  | 2 =>
    if w / 2 ^ 20 = 0 ∧ wordField w 0 4 = 0 then
      .ok (.readPort (BitVec.ofNat 6 (wordField w 8 6)) (BitVec.ofNat 6 (wordField w 14 6)))
    else .error (.strayBits 2)
  | tag => .error (.unknownFormat tag)

/-- The trace word of what is fetched (log 8). -/
def wordOfFetched : Fetched → Nat
  | .formatS phase => phase.toNat
  | .formatH p =>
    p.h.toNat + 1 * 2 ^ 4 + p.plen.toNat * 2 ^ 8 + p.pwAddr.toNat * 2 ^ 24 + p.pwData.toNat * 2 ^ 33
  | .readPort x y => 2 * 2 ^ 4 + x.toNat * 2 ^ 8 + y.toNat * 2 ^ 14

/-- The instruction the decoder reads from a trace word of `nbits` bits, every bit above them
zero; none where the word is rejected. The table's formats H and S give the same 4-bit codes to
different rows: a word with nothing above its vector is read as format S (log 8). -/
def decodeTableWord (nbits w : Nat) : Option Instr :=
  match fetchedOfWord (w % 2 ^ nbits) with
  | .ok f => some (decode f)
  | .error _ => none

end Sys2Proof
end

