-- ==== Sys2Proof/Machine/Tables.lean ====
section
/-! DEFINITION. The constant tables: their default values, how they are read, and what the spec
fixes about them (`20_memory.md` R40 to R43; `41_create.md` R87; `42_pattern.md` R100). -/

namespace Sys2Proof.Machine

/-- The side of the grid of version `v`, for `v` in 1..10 (R17, R87). -/
def sizeOfVersion (v : Nat) : Nat := 21 + 4 * (v - 1)

/-- The default `CAP` (R41). -/
def defaultCap : Vector (Vector (Fin 272) 4) 10 :=
  #v[#v[17, 14, 11, 7], #v[32, 26, 20, 14], #v[53, 42, 32, 24], #v[78, 62, 46, 34],
     #v[106, 84, 60, 44], #v[134, 106, 74, 58], #v[154, 122, 86, 64], #v[192, 152, 108, 84],
     #v[230, 180, 130, 98], #v[271, 213, 151, 119]]

/-- The default `FMT` (R42). -/
def defaultFmt : Vector (Vector FormatWord 8) 4 :=
  #v[#v[0x77C4, 0x72F3, 0x7DAA, 0x789D, 0x662F, 0x6318, 0x6C41, 0x6976],
     #v[0x5412, 0x5125, 0x5E7C, 0x5B4B, 0x45F9, 0x40CE, 0x4F97, 0x4AA0],
     #v[0x355F, 0x3068, 0x3F31, 0x3A06, 0x24B4, 0x2183, 0x2EDA, 0x2BED],
     #v[0x1689, 0x13BE, 0x1CE7, 0x19D0, 0x0762, 0x0255, 0x0D0C, 0x083B]]

/-- The default `ALIGN` (R43). -/
def defaultAlign : Vector (List (Fin 57)) 10 :=
  #v[[], [6, 18], [6, 22], [6, 26], [6, 30], [6, 34], [6, 22, 38], [6, 24, 42], [6, 26, 46],
     [6, 28, 50]]

/-- The default configuration: the default tables and `FMT_COPY2 = full` (R7, R40, R134). -/
def defaultConfig : Config := ⟨defaultCap, defaultFmt, defaultAlign, .full⟩

/-- `CAP[v][e]`, defined for `v` in 1..10 and `e` in 0..3 (R41, R70). -/
def capAt? (c : Config) (v e : Nat) : Option Nat :=
  if h : (1 ≤ v ∧ v ≤ 10) ∧ e < 4 then some (c.cap[v - 1][e] : Fin 272).val else none

/-- `FMT[e][m]` (R42, R130). -/
def fmtAt (c : Config) (e : BitVec 2) (m : BitVec 3) : FormatWord :=
  (c.fmt[e.toNat]'e.isLt)[m.toNat]'m.isLt

/-- `ALIGN[v]`, defined for `v` in 1..10 (R43, R70). -/
def alignAt? (c : Config) (v : Nat) : Option (List Nat) :=
  if h : 1 ≤ v ∧ v ≤ 10 then some (c.align[v - 1].map Fin.val) else none

/-- The alignment pattern at this centre is skipped: it is near a finder corner (R100). -/
def alignSkipped (n cx cy : Nat) : Bool :=
  let loX := decide (cx < Config.alignEdge)
  let hiX := decide (cx + Config.alignEdge ≥ n)
  let loY := decide (cy < Config.alignEdge)
  let hiY := decide (cy + Config.alignEdge ≥ n)
  (loX && loY) || (hiX && loY) || (loX && hiY)

/-- The centres drawn in a grid of side `n` for the list `l`, in the order of R100. -/
def drawnCentres (n : Nat) (l : List Nat) : List (Nat × Nat) :=
  (l.flatMap fun cx => l.map fun cy => (cx, cy)).filter fun c => !alignSkipped n c.1 c.2

/-- A drawn 5×5 pattern fits the grid of side `n` (R43, R99). -/
def centreFits (n : Nat) (c : Nat × Nat) : Bool :=
  2 ≤ c.1 && c.1 + 3 ≤ n && 2 ≤ c.2 && c.2 + 3 ≤ n

/-- Row `v` of `CAP` falls as the level rises and every entry is at least 4 (R41 items 4, 5). -/
def capRowLegal (c : Config) (v : Nat) : Bool :=
  match capAt? c v 0, capAt? c v 1, capAt? c v 2, capAt? c v 3 with
  | some l, some m, some q, some h => m < l && q < m && h < q && 4 ≤ h
  | _, _, _, _ => false

/-- `ALIGN[v]` lists at most 3 numbers (R31), and every pattern it makes the core draw fits the grid
(R43). -/
def alignRowLegal (c : Config) (v : Nat) : Bool :=
  match alignAt? c v with
  | some l =>
    decide (l.length ≤ 3) && (drawnCentres (sizeOfVersion v) l).all (centreFits (sizeOfVersion v))
  | none => false

/-- What the spec fixes about the tables: the rows of `CAP` for versions 1 and 2 and the entry 271
(R41 items 1, 2), the shape of every row (R41 items 4, 5; item 3 is in the type), `ALIGN[1]` empty
and every drawn pattern inside the grid (R43), no list of `ALIGN` longer than 3 (R31). -/
def configLegal (c : Config) : Bool :=
  (List.range 4).all (fun e => capAt? c 1 e == [17, 14, 11, 7][e]?) &&
  (List.range 4).all (fun e => capAt? c 2 e == [32, 26, 20, 14][e]?) &&
  capAt? c 10 0 == some 271 &&
  (List.range' 1 10).all (capRowLegal c) &&
  alignAt? c 1 == some [] &&
  (List.range' 1 10).all (alignRowLegal c)

end Sys2Proof.Machine
end

