-- ==== Sys2Proof/Machine/State.lean ====
section
/-! DEFINITION. The state of the core (`10_state.md`, `20_memory.md` R31), its value right after
reset (R29), and the reasons a step can stop. -/

namespace Sys2Proof.Machine

/-- A byte memory (`PBUF` or `CW`): the bytes written since the last `RESET`, by address. -/
abbrev Memory := List Host.Cell

/-- The number of cells of the grid storage, 57 × 57 (R36). -/
abbrev gridCells : Nat := 3249

/-- A grid memory (`MG` or `FG`): which of the 57 × 57 cells have been written since the last
`RESET`, and the bits of those. Cell `(x, y)` is bit `57 * y + x`. -/
structure Grid where
  written : BitVec gridCells
  value   : BitVec gridCells
deriving DecidableEq, Repr

/-- One cell write of an operation, at coordinates that are integers until they are range-checked
(R9, R38). -/
structure CellWrite where
  x   : Int
  y   : Int
  bit : Bool
deriving DecidableEq, Repr

/-- The output ports of the core (R24, R25, R81). -/
structure OutputPorts where
  phase   : Nibble
  err     : BitVec 2
  version : Nibble
  level   : BitVec 2
  size    : BitVec 6
  mask    : BitVec 3
  busy    : Bool
  done    : Bool
  failed  : Bool
  rdDark  : Bool
deriving DecidableEq, Repr

/-- The three kinds of failure (R138). -/
inductive ErrorKind where
  | input
  | capacity
  | internal
deriving DecidableEq, Repr

/-- The state: the registers (R14 to R24), the four memories (R31), then the model's own fields:
the last value on the port `rd_dark`, the two counters of free values, the coming steps, and the
configuration, which no instruction writes. -/
structure State where
  /-- `PHASE` (R20). -/
  phase : Nibble
  /-- `ERR` (R21). -/
  err : BitVec 2
  /-- `VERSION` (R15). -/
  version : Nibble
  /-- `LEVEL` (R16). -/
  level : BitVec 2
  /-- `SIZE` (R17). -/
  size : BitVec 6
  /-- `MASK` (R18). -/
  mask : BitVec 3
  /-- `PLEN` (R19). -/
  plen : BitVec 16
  /-- `MGDIM` (R23). -/
  mgdim : BitVec 6
  /-- `FGDIM` (R23). -/
  fgdim : BitVec 6
  /-- `PBUF` (R32). -/
  pbuf : Memory
  /-- `CW` (R33). -/
  cw : Memory
  /-- `MG` (R34). -/
  mg : Grid
  /-- `FG` (R35). -/
  fg : Grid
  /-- What the port `rd_dark` showed at the last `RDCELL` (R79; log 6). -/
  rdDark : Bool
  /-- The number of `RESET`s so far; it selects the `any` contents of the memories (log 5). -/
  epoch : Nat
  /-- The number of `RDCELL`s answered `any` so far; it selects the next answer (log 6). -/
  anyReads : Nat
  /-- The coming steps of host and sequencer, oldest first (R71, R82; log 1). -/
  script : List Line
  /-- `CAP`, `FMT`, `ALIGN`, `FMT_COPY2` (R30; log 4). -/
  config : Config
deriving DecidableEq, Repr

/-- Where the sequencer stops for good. -/
inductive Fault where
  /-- Raised by the seven `RESERVED` rows: the sequencer is stepped at a reserved `PHASE`
  (9 to 15), where it has no step and only `RESET` leaves (R70, U11). Safe: the model stops where
  the core does nothing, and no run reaches such a phase. -/
  | stuck (phase : Nibble)
deriving DecidableEq, Repr

/-- What the model gives no meaning to. All but the first arise only in states that no run from
reset reaches. -/
inductive Refusal where
  /-- Raised by an arm of `exec` whose instruction has no meaning yet. Safe. -/
  | notModelled (mnemonic : String)
  /-- Raised by `PATTERN`, `ENCODE` and `PLACE`: `VERSION` 0 or 11 to 15 is used as a table index,
  which R70 and U12 say a model refuses. Safe. -/
  | tableIndex (version : Nibble)
  /-- Raised by `PATTERN`, `PLACE`, `MASK` and `FORMAT`: the operation would touch a cell outside
  the window or the storage, against the precondition of R36 and R38 (log 10). Safe. -/
  | outsideWindow (size : BitVec 6)
  /-- Raised by `ENCODE`: `PLEN` exceeds the depth of `PBUF`, against the precondition of R103
  (log 11). Safe. -/
  | payloadIndex (plen : BitVec 16)
deriving DecidableEq, Repr

/-- The machine right after reset (R29, R153): every register 0, no memory cell written (their
contents are `any`), nothing scripted, the default configuration. -/
def State.reset : State where
  phase := Phase.idle
  err := 0
  version := 0
  level := 0
  size := 0
  mask := 0
  plen := 0
  mgdim := 0
  fgdim := 0
  pbuf := []
  cw := []
  mg := ⟨0, 0⟩
  fg := ⟨0, 0⟩
  rdDark := false
  epoch := 0
  anyReads := 0
  script := []
  config := defaultConfig

end Sys2Proof.Machine
end

