-- ==== Sys2Proof/Machine/Flags.lean ====
section
/-! DEFINITION. The error codes (`30_encoding.md` R60), the three flags that are functions of
`PHASE` (`10_state.md` R22), which phase accepts which host event (`40_host_events.md` R73), and
the output ports (R24, R81). No operation has another flag (R22). -/

namespace Sys2Proof.Machine

/-- The value `raise` writes to `ERR` (R60, R138). -/
def ErrorKind.code : ErrorKind → BitVec 2
  | .input => 1#2
  | .capacity => 2#2
  | .internal => 3#2

/-- `busy`: `PHASE` is one of `STARTED`, `UNINIT`, `PATTERNS_PLACED`, `DATA_ENCODED`,
`DATA_PLACED`, `MASKED` (R22). -/
def State.busy (s : State) : Bool :=
  s.phase == Phase.started || s.phase == Phase.uninit || s.phase == Phase.patternsPlaced ||
  s.phase == Phase.dataEncoded || s.phase == Phase.dataPlaced || s.phase == Phase.masked

/-- `done`: `PHASE = FORMAT_EMBEDDED` (R22). -/
def State.done (s : State) : Bool := s.phase == Phase.formatEmbedded

/-- `failed`: `PHASE = FAILED` (R22). -/
def State.failed (s : State) : Bool := s.phase == Phase.failed

/-- `START` and `PWRITE` are accepted in `IDLE` only (R73). -/
def State.acceptsPayload (s : State) : Bool := s.phase == Phase.idle

/-- `CLEAR` is accepted in `IDLE`, `FORMAT_EMBEDDED` and `FAILED` only (R73). -/
def State.acceptsClear (s : State) : Bool :=
  s.phase == Phase.idle || s.phase == Phase.formatEmbedded || s.phase == Phase.failed

/-- What the output ports show (R24, R81). -/
def State.outputs (s : State) : OutputPorts where
  phase := s.phase
  err := s.err
  version := s.version
  level := s.level
  size := s.size
  mask := s.mask
  busy := s.busy
  done := s.done
  failed := s.failed
  rdDark := s.rdDark

end Sys2Proof.Machine
end

