-- ==== Sys2Proof/Machine/Grid.lean ====
section
/-! DEFINITION. The grid memories `MG` and `FG` (`20_memory.md` R31, R34 to R36, R46): reading and
writing one cell, clearing the storage, and the window. -/

namespace Sys2Proof.Machine

/-- The bit of a grid that holds cell `(x, y)`: column `x`, row `y` (R8). -/
def cellIndex (x y : Nat) : Nat := 57 * y + x

/-- Read a cell: the bit written, or the free value `free` gives an unwritten cell. -/
def Grid.read (g : Grid) (free : Nat → Bool) (x y : Nat) : Bool :=
  if g.written.getLsbD (cellIndex x y) then g.value.getLsbD (cellIndex x y)
  else free (cellIndex x y)

/-- Write a cell. -/
def Grid.set (g : Grid) (x y : Nat) (b : Bool) : Grid where
  written := g.written ||| BitVec.twoPow gridCells (cellIndex x y)
  value :=
    if b then g.value ||| BitVec.twoPow gridCells (cellIndex x y)
    else g.value &&& ~~~(BitVec.twoPow gridCells (cellIndex x y))

/-- Every cell of the storage 0, as `gridinit` leaves it (R88). -/
def Grid.cleared : Grid := ⟨BitVec.allOnes gridCells, 0⟩

/-- No cell written: the contents `RESET` leaves, `any` in every cell (R29, R74). -/
def Grid.unwritten : Grid := ⟨0, 0⟩

/-- The canonical form: an unwritten cell holds no bit. -/
abbrev Grid.wf (g : Grid) : Prop := g.value &&& ~~~g.written = 0

/-- Every cell of the storage has been written since the last `RESET`. -/
abbrev Grid.full (g : Grid) : Prop := g.written = BitVec.allOnes gridCells

/-- The cells of the window `0 ≤ x, y < n`, row by row (R36, R120). -/
def windowCells (n : Nat) : List (Nat × Nat) :=
  (List.range n).flatMap fun y => (List.range n).map fun x => (x, y)

/-- A cell write lies inside the window of side `n` and inside the storage (R36, R38). -/
def CellWrite.inWindow (n : Nat) (w : CellWrite) : Bool :=
  decide (0 ≤ w.x) && decide (w.x < n) && decide (0 ≤ w.y) && decide (w.y < n) &&
  decide (n ≤ Config.gridSide)

end Sys2Proof.Machine
end

