-- ==== Sys2Proof/Machine/Memory.lean ====
section
/-! DEFINITION. The byte memories `PBUF` and `CW` (`20_memory.md` R31 to R33, R46): reading and
writing one byte, and the canonical form of the list. -/

namespace Sys2Proof.Machine

/-- The byte written at `a`, if one has been since the last `RESET`. -/
def Memory.find : Memory → Nat → Option Byte
  | [], _ => none
  | (k, d) :: m, a => if k = a then some d else Memory.find m a

/-- Write one byte, keeping the addresses strictly rising. -/
def Memory.write : Memory → Nat → Byte → Memory
  | [], a, d => [(a, d)]
  | (k, e) :: m, a, d =>
    if a < k then (a, d) :: (k, e) :: m
    else if a = k then (a, d) :: m
    else (k, e) :: Memory.write m a d

/-- The canonical form: addresses strictly rising and inside the depth. What an unlisted address
reads as is a free value, which no listed byte is taken to equal (log 5). -/
abbrev Memory.wf (depth : Nat) (m : Memory) : Prop :=
  m.Pairwise (fun a b => a.1 < b.1) ∧ ∀ c ∈ m, c.1 < depth

/-- Write `bytes` at the addresses from `a` up, in that order. -/
def Memory.writeFrom (m : Memory) (a : Nat) : List Byte → Memory
  | [] => m
  | d :: ds => Memory.writeFrom (Memory.write m a d) (a + 1) ds

end Sys2Proof.Machine
end

