-- ==== Sys2Proof/Machine/Operands.lean ====
section
/-! DEFINITION. Operand forms: the ports an instruction's operands come from (`30_encoding.md` R55,
`10_state.md` R25), and the bit fields of the bytes, numbers and words the operations move
(`20_memory.md` R44; `30_encoding.md` R64, R65, R68). -/

namespace Sys2Proof.Machine

/-- The operand `n` on the 16-bit port `plen`, used as it is (R55). -/
def plenPort (n : Nat) : BitVec 16 := BitVec.ofNat 16 n

/-- The byte index `a` addresses a byte of `PBUF` (R49, R77). -/
def pwAddrInRange (a : Nat) : Bool := a < Config.pbufDepth

/-- The cell `(x, y)` on the read port lies in the window of side `n` and in the storage (R79). -/
def rdCellInWindow (n x y : Nat) : Bool :=
  x < n && y < n && x < Config.gridSide && y < Config.gridSide

/-- The `w`-bit number `b`, most significant bit first: what `append(b, w)` adds (R102). -/
def msbFirst (w b : Nat) : List Bool := (List.range w).map fun i => b.testBit (w - 1 - i)

/-- The eight stream bits of a byte, bit 7 first (R65). -/
def byteBits (b : Byte) : List Bool := msbFirst 8 b.toNat

/-- The number whose bits are listed, most significant first. -/
def numberOfBits (bits : List Bool) : Nat := bits.foldl (fun n b => 2 * n + b.toNat) 0

/-- The byte that eight stream bits make, the first as bit 7 (R64, R110). -/
def byteOfBits (bits : List Bool) : Byte := BitVec.ofNat 8 (numberOfBits bits)

/-- Bit `k` of the stream held in `CW`: bit `7 - k mod 8` of byte `k div 8` (R64), for the reader
`cw` of one byte. -/
def streamBit (cw : Nat → Byte) (k : Nat) : Bool := (cw (k / 8)).getLsbD (7 - k % 8)

/-- `F[i]`, bit 0 the least significant (R68). -/
def formatBit (f : FormatWord) (i : Nat) : Bool := f.getLsbD i

end Sys2Proof.Machine
end

