-- ==== Sys2Proof/Machine/Ops.lean ====
section
/-! DEFINITION. The operations over the whole state that the instructions share: reading the four
memories (`20_memory.md` R31; `10_state.md` R29), the function-cell write (R38), raising an error
and the way back to `IDLE` (`60_exceptions.md` R142, R145), the sequencer without a step
(`40_host_events.md` R80; `30_encoding.md` R70), and what one step fetches (R71, R82). -/

namespace Sys2Proof.Machine

/-- The outcome of an instruction. -/
abbrev Result := Host.Outcome State Fault Refusal

/-- `PBUF[a]`: the byte the host wrote, else the free value of this `RESET` (R29, R32). -/
def State.pbufAt (s : State) (a : Nat) : Byte :=
  (Memory.find s.pbuf a).getD (Config.freePbuf s.epoch a)

/-- `CW[a]`: the byte written since the last `RESET`, else its free value (R29, R33). -/
def State.cwAt (s : State) (a : Nat) : Byte :=
  (Memory.find s.cw a).getD (Config.freeCw s.epoch a)

/-- `MG[x][y]` (R34). -/
def State.mgAt (s : State) (x y : Nat) : Bool := s.mg.read (Config.freeMg s.epoch) x y

/-- `FG[x][y]` (R35). -/
def State.fgAt (s : State) (x y : Nat) : Bool := s.fg.read (Config.freeFg s.epoch) x y

/-- `setf(x, y, b)`: `MG[x][y] <- b; FG[x][y] <- 1` (R38). -/
def State.setf (s : State) (w : CellWrite) : State :=
  { s with
    mg := s.mg.set w.x.toNat w.y.toNat w.bit
    fg := s.fg.set w.x.toNat w.y.toNat true }

/-- The function-cell writes of a list, in its order (R10, R38). -/
def State.setfAll (s : State) (ws : List CellWrite) : State :=
  { s with
    mg := ws.foldl (fun g w => g.set w.x.toNat w.y.toNat w.bit) s.mg
    fg := ws.foldl (fun g w => g.set w.x.toNat w.y.toNat true) s.fg }

/-- Perform function-cell writes and go to `next`. Every write is inside the window in every state
a run reaches (R36, R38); elsewhere the writes have no meaning (log 10). -/
def State.drawThen (s : State) (ws : List CellWrite) (next : Nibble) : Result :=
  if ws.all (CellWrite.inWindow s.size.toNat) then .next { s.setfAll ws with phase := next }
  else .refused (.outsideWindow s.size)

/-- `raise K`: `ERR <- code(K)`, `PHASE <- FAILED`, and nothing else (R142). -/
def State.raise (s : State) (k : ErrorKind) : State :=
  { s with err := k.code, phase := Phase.failed }

/-- What `CLEAR` and `RESET` do to the registers: the way out of `FAILED`, since there is no return
instruction (R74, R75, R145). -/
def State.clearRegisters (s : State) : State :=
  { s with
    phase := Phase.idle, err := 0, version := 0, level := 0, size := 0, mask := 0, plen := 0,
    mgdim := 0, fgdim := 0 }

/-- The sequencer has no step and `PHASE` is unchanged (R58, R80; log 2). -/
def State.wait (s : State) : Result := .next s

/-- The sequencer is stuck at a reserved phase (R70, U11; log 3). -/
def stuckAt (phase : Nibble) : Result := .fault (.stuck phase)

/-- What the next step presents to the decoder, and the state with that line of the script taken.
A host line presents its ports, a read line its coordinates, and a sequencer line the register
`PHASE`; when nothing is scripted the sequencer steps by itself (R58, R71, R82; log 1). -/
def State.fetch (s : State) : Fetched × State :=
  match s.script with
  | [] => (.formatS s.phase, s)
  | .seq :: rest => (.formatS s.phase, { s with script := rest })
  | .host p :: rest => (.formatH p, { s with script := rest })
  | .read x y :: rest => (.readPort x y, { s with script := rest })

end Sys2Proof.Machine
end

