-- ==== Sys2Proof/Machine/Create.lean ====
section
/-! DEFINITION. The operation `CREATE`: validation, the Symbol Sizer, the grid initialisation
(`41_create.md` R83 to R89). -/

namespace Sys2Proof.Machine

/-- The (version, level) pairs in the sizer's search order: versions ascending, and for each the
levels High, Quartile, Medium, Low (R85). -/
def sizerOrder : List (Nat × Nat) :=
  (List.range' 1 10).flatMap fun v => [3, 2, 1, 0].map fun e => (v, e)

/-- The capacity of the pair holds `l` bytes and the overhead; the sum does not wrap (R85). -/
def fits (c : Config) (l : Nat) (p : Nat × Nat) : Bool :=
  match capAt? c p.1 p.2 with
  | some cap => cap ≥ l + Config.overhead
  | none => false

/-- `sizer(L)`: the first pair that fits, none for a `CapacityError` (R85). -/
def sizer (c : Config) (l : Nat) : Option (Nat × Nat) := sizerOrder.find? (fits c l)

/-- `gridinit()`: every cell of both grids 0, both dimensions `SIZE` (R88). -/
def State.gridInit (s : State) : State :=
  { s with mg := Grid.cleared, fg := Grid.cleared, mgdim := s.size, fgdim := s.size }

/-- The register writes of a successful `CREATE` (R83, R87, R89). -/
def State.sizeSymbol (s : State) (v e : Nat) : State :=
  { s with
    version := BitVec.ofNat 4 v, level := BitVec.ofNat 2 e
    size := BitVec.ofNat 6 (sizeOfVersion v), mask := 0 }

/-- `CREATE` (R83): the empty payload first, then the capacity, each raised before anything is
written (R84, R85, R144). -/
def execCreate (s : State) : Result :=
  if s.plen = 0 then .next (s.raise .input)
  else
    match sizer s.config s.plen.toNat with
    | none => .next (s.raise .capacity)
    | some (v, e) => .next { (s.sizeSymbol v e).gridInit with phase := Phase.uninit }

end Sys2Proof.Machine
end

