-- ==== Sys2Proof/Machine/Encode.lean ====
section
/-! DEFINITION. The operation `ENCODE`: the byte-mode bitstream and its packing into `CW`
(`43_encode.md` R102 to R110; `30_encoding.md` R63 to R67). -/

namespace Sys2Proof.Machine

/-- Mode indicator, length field and payload (R104 to R106). The field holds `L mod 256` (R105). -/
def streamHead (payload : List Byte) : List Bool :=
  msbFirst 4 0b0100 ++ msbFirst 8 (payload.length % 256) ++ payload.flatMap byteBits

/-- The terminator: up to 4 zero bits, clipped to the `t` bits of the stream (R107). -/
def terminator (t len : Nat) : List Bool := List.replicate (min 4 (t - len)) false

/-- Zero bits up to the next byte boundary (R108). -/
def bitPadding (len : Nat) : List Bool := List.replicate ((8 - len % 8) % 8) false

/-- `k` pad bytes, `0xEC` and `0x11` by turns, `0xEC` first (R67, R109). -/
def padBytes (k : Nat) : List Bool :=
  (List.range k).flatMap fun i => byteBits (if i % 2 = 0 then 0xEC#8 else 0x11#8)

/-- The whole stream for a capacity of `c` bytes (R102): a pad byte is appended as long as the
stream is shorter than `8 * c`. -/
def bitstream (payload : List Byte) (c : Nat) : List Bool :=
  let head := streamHead payload
  let ended := head ++ terminator (8 * c) head.length
  let aligned := ended ++ bitPadding ended.length
  aligned ++ padBytes ((8 * c - aligned.length + 7) / 8)

/-- The first `c` bytes of the stream, eight bits each (R110). -/
def packBytes (bits : List Bool) : Nat → List Byte
  | 0 => []
  | c + 1 => byteOfBits (bits.take 8) :: packBytes (bits.drop 8) c

/-- The payload `PBUF[0..PLEN-1]` (R32). -/
def State.payload (s : State) : List Byte := (List.range s.plen.toNat).map s.pbufAt

/-- `ENCODE` (R102): `CW[0..C-1]` written in order, `PHASE <- DATA_ENCODED`. The two refusals are of
states no run reaches (R70, R103; log 9, log 11). -/
def execEncode (s : State) : Result :=
  match capAt? s.config s.version.toNat s.level.toNat with
  | none => .refused (.tableIndex s.version)
  | some c =>
    if s.plen.toNat > Config.pbufDepth then .refused (.payloadIndex s.plen)
    else
      .next { s with
        cw := Memory.writeFrom s.cw 0 (packBytes (bitstream s.payload c) c)
        phase := Phase.dataEncoded }

end Sys2Proof.Machine
end

