-- ==== Sys2Proof/Machine/Format.lean ====
section
/-! DEFINITION. The operation `FORMAT`: the two copies of the format word and the dark module
(`46_format.md` R129 to R136). -/

namespace Sys2Proof.Machine

/-- The first copy, round the top-left finder (R131 to R133). -/
def formatCopy1 (f : FormatWord) : List CellWrite :=
  (List.range 6).map (fun (i : Nat) => ⟨8, (i : Int), formatBit f i⟩) ++
  [⟨8, 7, formatBit f 6⟩, ⟨8, 8, formatBit f 7⟩, ⟨7, 8, formatBit f 8⟩] ++
  (List.range' 9 6).map (fun (i : Nat) => ⟨14 - (i : Int), 8, formatBit f i⟩)

/-- The second copy, as `FMT_COPY2` selects (R134). -/
def formatCopy2 (n : Nat) (f : FormatWord) : FmtCopy2 → List CellWrite
  | .full =>
    (List.range 8).map (fun (i : Nat) => ⟨(n : Int) - 1 - i, 8, formatBit f i⟩) ++
    (List.range' 8 7).map (fun (i : Nat) => ⟨8, (n : Int) - 15 + i, formatBit f i⟩)
  | .literal => (List.range' 9 6).map fun (i : Nat) => ⟨8, (n : Int) - 15 + i, formatBit f i⟩

/-- The dark module `(8, n - 8)` (R135). -/
def darkModule (n : Nat) : CellWrite := ⟨8, (n : Int) - 8, true⟩

/-- All writes of `FORMAT` in order (R129). -/
def formatWrites (n : Nat) (f : FormatWord) (copy2 : FmtCopy2) : List CellWrite :=
  formatCopy1 f ++ formatCopy2 n f copy2 ++ [darkModule n]

/-- `FORMAT` (R129): `F = FMT[LEVEL][MASK]` (R130), its cells, `PHASE <- FORMAT_EMBEDDED`. -/
def execFormat (s : State) : Result :=
  s.drawThen
    (formatWrites s.size.toNat (fmtAt s.config s.level s.mask) s.config.fmtCopy2)
    Phase.formatEmbedded

end Sys2Proof.Machine
end

