-- ==== Sys2Proof/Machine/HostEvents.lean ====
section
/-! DEFINITION. The host events and the read port (`40_host_events.md` R73 to R79). -/

namespace Sys2Proof.Machine

/-- `RESET` (R74): every register 0, every memory cell `any`: nothing counts as written any more,
and a new draw of the free values begins (log 5). -/
def execReset (s : State) : Result :=
  .next { s.clearRegisters with
    pbuf := [], cw := [], mg := Grid.unwritten, fg := Grid.unwritten, epoch := s.epoch + 1 }

/-- `CLEAR` (R75): the registers to 0 where it is accepted, else nothing. -/
def execClear (s : State) : Result :=
  if s.acceptsClear then .next s.clearRegisters else .next s

/-- `START n` (R76): in `IDLE`, `PLEN <- n` and `PHASE <- STARTED`, else nothing. -/
def execStart (n : Nat) (s : State) : Result :=
  if s.acceptsPayload then .next { s with plen := plenPort n, phase := Phase.started }
  else .next s

/-- `PWRITE a, d` (R77): in `IDLE` and for `a < 268`, `PBUF[a] <- d`, else nothing. -/
def execPwrite (a : Nat) (d : Byte) (s : State) : Result :=
  if s.acceptsPayload && pwAddrInRange a then .next { s with pbuf := Memory.write s.pbuf a d }
  else .next s

/-- `NOPH` (R78): no state changes. -/
def execNoph (s : State) : Result := .next s

/-- `RDCELL x, y` (R79): `rd_dark` shows `MG[x][y]` in `FORMAT_EMBEDDED` inside the window, else a
free value (log 6). No state of the core changes. -/
def execRdcell (x y : Nat) (s : State) : Result :=
  if s.done && rdCellInWindow s.size.toNat x y then .next { s with rdDark := s.mgAt x y }
  else .next { s with rdDark := Config.freeRdDark s.anyReads, anyReads := s.anyReads + 1 }

end Sys2Proof.Machine
end

