-- ==== Sys2Proof/Machine/Mask.lean ====
section
/-! DEFINITION. The operation `MASK`: the eight predicates, the toggling of the free cells, the
row-run penalty and the choice (`45_mask.md` R118 to R126). -/

namespace Sys2Proof.Machine

/-- `pred(m, x, y)`: `x` the column, `y` the row (R119). -/
def maskPred (m x y : Nat) : Bool :=
  match m with
  | 0 => (x + y) % 2 == 0
  | 1 => y % 2 == 0
  | 2 => x % 3 == 0
  | 3 => (x + y) % 3 == 0
  | 4 => (y / 2 + x / 3) % 2 == 0
  | 5 => x * y % 2 + x * y % 3 == 0
  | 6 => (x * y % 2 + x * y % 3) % 2 == 0
  | 7 => ((x + y) % 2 + x * y % 3) % 2 == 0
  | _ => false

/-- Toggle one cell where it is not function-owned and the predicate holds (R120). -/
def toggleCell (fg : Nat → Nat → Bool) (free : Nat → Bool) (m : Nat) (g : Grid)
    (c : Nat × Nat) : Grid :=
  if !fg c.1 c.2 && maskPred m c.1 c.2 then g.set c.1 c.2 (!g.read free c.1 c.2) else g

/-- `applymask(m)` on the window of side `n` (R120). -/
def applyMask (fg : Nat → Nat → Bool) (free : Nat → Bool) (n m : Nat) (g : Grid) : Grid :=
  (windowCells n).foldl (toggleCell fg free m) g

/-- The score of a maximal run: `3 + (run - 5)` from length 5 on (R123). -/
def runScore (run : Nat) : Nat := if run ≥ 5 then 3 + (run - 5) else 0

/-- The scan of a row: `prev` is the last cell seen, `run` the length of its run so far (R123). -/
def scanRow (prev : Bool) (run : Nat) : List Bool → Nat
  | [] => runScore run
  | b :: rest =>
    if b = prev then scanRow prev (run + 1) rest else runScore run + scanRow b 1 rest

/-- The score of one row; the run that ends at the edge counts (R123). -/
def rowScore : List Bool → Nat
  | [] => 0
  | b :: rest => scanRow b 1 rest

/-- Row `y` of the window of side `n`, left to right (R123). -/
def gridRow (free : Nat → Bool) (n : Nat) (g : Grid) (y : Nat) : List Bool :=
  (List.range n).map fun x => g.read free x y

/-- `penalty()` (R123). -/
def penalty (free : Nat → Bool) (n : Nat) (g : Grid) : Nat :=
  ((List.range n).map fun y => rowScore (gridRow free n g y)).sum

/-- `if m = 0 or PEN < BEST: BEST = PEN; BESTMASK = m`: the pair (BEST, BESTMASK), none before the
first candidate (R118, R124). -/
def better (best : Option (Nat × Nat)) (pen m : Nat) : Option (Nat × Nat) :=
  match best with
  | none => some (pen, m)
  | some (b, bm) => if pen < b then some (pen, m) else some (b, bm)

/-- The evaluation loop over the candidates listed, in place: apply, score, undo, compare (R118,
R122). -/
def tryMasks (fg : Nat → Nat → Bool) (free : Nat → Bool) (n : Nat) :
    List Nat → Grid → Option (Nat × Nat) → Grid × Option (Nat × Nat)
  | [], g, best => (g, best)
  | m :: rest, g, best =>
    let masked := applyMask fg free n m g
    let undone := applyMask fg free n m masked
    tryMasks fg free n rest undone (better best (penalty free n masked) m)

/-- The index of the best candidate so far (R124). -/
def bestIndex : Option (Nat × Nat) → Nat
  | some (_, m) => m
  | none => 0

/-- `MASK` (R118): the eight candidates in order, then the chosen one applied for good (R125) and
recorded (R126). The refusal is of states no run reaches (R36; log 10). -/
def execMask (s : State) : Result :=
  if s.size.toNat > Config.gridSide then .refused (.outsideWindow s.size)
  else
    let n := s.size.toNat
    let free := Config.freeMg s.epoch
    let tried := tryMasks s.fgAt free n (List.range 8) s.mg none
    .next { s with
      mg := applyMask s.fgAt free n (bestIndex tried.2) tried.1
      mask := BitVec.ofNat 3 (bestIndex tried.2)
      phase := Phase.masked }

end Sys2Proof.Machine
end

