-- ==== Sys2Proof/Machine/Pattern.lean ====
section
/-! DEFINITION. The operation `PATTERN`: the grid check, then finder, separator, timing and alignment
patterns in that order (`42_pattern.md` R91 to R100). -/

namespace Sys2Proof.Machine

/-- `max(abs a, abs b)`, the ring number of an offset (R94, R99). -/
def ringNumber (a b : Int) : Nat := max a.natAbs b.natAbs

/-- The 7×7 finder template: light on ring 2 only (R94). -/
def finderBit (dx dy : Nat) : Bool := ringNumber ((dx : Int) - 3) ((dy : Int) - 3) != 2

/-- The 5×5 alignment template: light on ring 1 only (R99). -/
def alignBit (dx dy : Int) : Bool := ringNumber dx dy != 1

/-- The top-left corners of the three finder patterns (R95). -/
def finderOrigins (n : Nat) : List (Int × Int) := [(0, 0), ((n : Int) - 7, 0), (0, (n : Int) - 7)]

/-- `finders()` (R96). -/
def finders (n : Nat) : List CellWrite :=
  (finderOrigins n).flatMap fun o =>
    (List.range 7).flatMap fun (dy : Nat) =>
      (List.range 7).map fun (dx : Nat) => ⟨o.1 + (dx : Int), o.2 + (dy : Int), finderBit dx dy⟩

/-- `separators()`: the ring at offsets -1 and 7, clipped to the grid (R97). The offsets -1..7 are
counted from 0 here. -/
def separators (n : Nat) : List CellWrite :=
  (finderOrigins n).flatMap fun o =>
    (List.range 9).flatMap fun (j : Nat) =>
      (List.range 9).filterMap fun (i : Nat) =>
        if i = 0 ∨ i = 8 ∨ j = 0 ∨ j = 8 then
          let x := o.1 + (i : Int) - 1
          let y := o.2 + (j : Int) - 1
          if 0 ≤ x ∧ x < n ∧ 0 ≤ y ∧ y < n then some ⟨x, y, false⟩ else none
        else none

/-- `timing()`: row 6 and column 6, indices 8..n-9, even index dark (R98). -/
def timing (n : Nat) : List CellWrite :=
  (List.range' 8 (n - 16)).flatMap fun (i : Nat) =>
    [⟨(i : Int), 6, i % 2 == 0⟩, ⟨6, (i : Int), i % 2 == 0⟩]

/-- `draw_align(cx, cy)` (R99). The offsets -2..2 are counted from 0 here. -/
def drawAlign (c : Nat × Nat) : List CellWrite :=
  (List.range 5).flatMap fun (j : Nat) =>
    (List.range 5).map fun (i : Nat) =>
      ⟨(c.1 : Int) + i - 2, (c.2 : Int) + j - 2, alignBit ((i : Int) - 2) ((j : Int) - 2)⟩

/-- `alignment()` for the centre coordinates `l` (R100). -/
def alignment (n : Nat) (l : List Nat) : List CellWrite := (drawnCentres n l).flatMap drawAlign

/-- The patterns that every version has, in the order of R93. -/
def basePatterns (n : Nat) : List CellWrite := finders n ++ separators n ++ timing n

/-- `PATTERN` (R91): the grid check raises `InternalError` before any cell is written (R92);
`ALIGN` is read for a version above 1 only (R100). -/
def execPattern (s : State) : Result :=
  if s.mgdim ≠ s.size ∨ s.fgdim ≠ s.size then .next (s.raise .internal)
  else if s.version.toNat > 1 then
    match alignAt? s.config s.version.toNat with
    | none => .refused (.tableIndex s.version)
    | some l =>
      s.drawThen (basePatterns s.size.toNat ++ alignment s.size.toNat l) Phase.patternsPlaced
  else s.drawThen (basePatterns s.size.toNat) Phase.patternsPlaced

end Sys2Proof.Machine
end

