-- ==== Sys2Proof/Machine/Place.lean ====
section
/-! DEFINITION. The operation `PLACE`: the zigzag traversal (`44_place.md` R111 to R116). -/

namespace Sys2Proof.Machine

/-- The values of `RIGHT` from `right` on: steps of 2 leftward while `RIGHT ≥ 1`, 6 made 5 (R112,
R116). The first argument bounds the number of pairs. -/
def rightColumns : Nat → Nat → List Nat
  | 0, _ => []
  | fuel + 1, right =>
    if right < 1 then []
    else
      let r := if right = 6 then 5 else right
      r :: rightColumns fuel (r - 2)

/-- The rows of one pair in visiting order: bottom to top when `up`, else top to bottom (R113). -/
def pairRows (n : Nat) (up : Bool) : List Nat :=
  (List.range n).map fun t => if up then n - 1 - t else t

/-- The cells of one column pair: in each row the right column, then the left (R114). -/
def pairCells (n : Nat) (up : Bool) (right : Nat) : List (Nat × Nat) :=
  (pairRows n up).flatMap fun y => [(right, y), (right - 1, y)]

/-- The cells of the pairs listed, the direction flipped after every pair (R113, R116). -/
def pairsCells (n : Nat) : Bool → List Nat → List (Nat × Nat)
  | _, [] => []
  | up, right :: rest => pairCells n up right ++ pairsCells n (!up) rest

/-- All cells in visiting order: the rightmost pair first, upward (R112, R113). -/
def visits (n : Nat) : List (Nat × Nat) := pairsCells n true (rightColumns n (n - 1))

/-- Place the bits `bit k`, `bit (k+1)`, ... in the cells of the list that are not function-owned
(R115). -/
def placeCells (fg : Nat → Nat → Bool) (bit : Nat → Bool) :
    List (Nat × Nat) → Nat → Grid → Grid
  | [], _, g => g
  | (x, y) :: rest, k, g =>
    if fg x y then placeCells fg bit rest k g
    else placeCells fg bit rest (k + 1) (g.set x y (bit k))

/-- Stream bit `k` of the `t` bits in `CW`, and 0 beyond them (R115). -/
def State.placedBit (s : State) (t k : Nat) : Bool :=
  if k < t then streamBit s.cwAt k else false

/-- `PLACE` (R111, R116). The two refusals are of states no run reaches (R36, R70; log 9,
log 10). -/
def execPlace (s : State) : Result :=
  match capAt? s.config s.version.toNat s.level.toNat with
  | none => .refused (.tableIndex s.version)
  | some c =>
    if s.size.toNat > Config.gridSide then .refused (.outsideWindow s.size)
    else
      .next { s with
        mg := placeCells s.fgAt (s.placedBit (8 * c)) (visits s.size.toNat) 0 s.mg
        phase := Phase.dataPlaced }

end Sys2Proof.Machine
end

