-- ==== Sys2Proof/Machine/Wait.lean ====
section
/-! DEFINITION. The rows of format S at which the sequencer has no step: `WAIT`
(`40_host_events.md` R80) and `RESERVED` (`30_encoding.md` R70). -/

namespace Sys2Proof.Machine

/-- `WAIT` at `IDLE`: a `START` lifts the wait (R80). -/
def execWaitIdle (s : State) : Result := s.wait

/-- `WAIT` at `FORMAT_EMBEDDED`, a terminal phase (R80). -/
def execWaitFormatEmbedded (s : State) : Result := s.wait

/-- `WAIT` at `FAILED`, a terminal phase (R80). -/
def execWaitFailed (s : State) : Result := s.wait

/-- `PHASE = 1001` (R70). The state is not looked at: the row has no effect to depend on it. -/
def execReserved9 (_ : State) : Result := stuckAt 9#4

/-- `PHASE = 1010` (R70). -/
def execReserved10 (_ : State) : Result := stuckAt 10#4

/-- `PHASE = 1011` (R70). -/
def execReserved11 (_ : State) : Result := stuckAt 11#4

/-- `PHASE = 1100` (R70). -/
def execReserved12 (_ : State) : Result := stuckAt 12#4

/-- `PHASE = 1101` (R70). -/
def execReserved13 (_ : State) : Result := stuckAt 13#4

/-- `PHASE = 1110` (R70). -/
def execReserved14 (_ : State) : Result := stuckAt 14#4

/-- `PHASE = 1111` (R70). -/
def execReserved15 (_ : State) : Result := stuckAt 15#4

end Sys2Proof.Machine
end

