-- ==== Sys2Proof/Machine/Dispatch.lean ====
section
/-! DEFINITION. One arm per instruction. -/

namespace Sys2Proof.Machine

def exec (i : Instr) (s : State) : Host.Outcome State Fault Refusal :=
  match i with
  | .reset => Sys2Proof.Machine.execReset s
  | .clear => Sys2Proof.Machine.execClear s
  | .start n => Sys2Proof.Machine.execStart n s
  | .pwrite a d => Sys2Proof.Machine.execPwrite a d s
  | .noph => Sys2Proof.Machine.execNoph s
  | .create => Sys2Proof.Machine.execCreate s
  | .pattern => Sys2Proof.Machine.execPattern s
  | .encode => Sys2Proof.Machine.execEncode s
  | .place => Sys2Proof.Machine.execPlace s
  | .mask => Sys2Proof.Machine.execMask s
  | .format => Sys2Proof.Machine.execFormat s
  | .waitIdle => Sys2Proof.Machine.execWaitIdle s
  | .waitFormatEmbedded => Sys2Proof.Machine.execWaitFormatEmbedded s
  | .waitFailed => Sys2Proof.Machine.execWaitFailed s
  | .reserved9 => Sys2Proof.Machine.execReserved9 s
  | .reserved10 => Sys2Proof.Machine.execReserved10 s
  | .reserved11 => Sys2Proof.Machine.execReserved11 s
  | .reserved12 => Sys2Proof.Machine.execReserved12 s
  | .reserved13 => Sys2Proof.Machine.execReserved13 s
  | .reserved14 => Sys2Proof.Machine.execReserved14 s
  | .reserved15 => Sys2Proof.Machine.execReserved15 s
  | .rdcell x y => Sys2Proof.Machine.execRdcell x y s

end Sys2Proof.Machine
end

