-- ==== Sys2Proof/Machine/Step.lean ====
section
/-! DEFINITION. One step of the machine (`40_host_events.md` R82), and the placing of one trace word
where the next step fetches (log 8). -/

namespace Sys2Proof.Machine

/-- Fetch, decode, execute. -/
def step (s : State) : Host.Outcome State Fault Refusal :=
  exec (decode s.fetch.1) s.fetch.2

/-- The state in which the next step runs the instruction of the trace word `w`: the word's line is
put at the head of the script, and a format-S word also stands in `PHASE`, where the sequencer
fetches it (R58). A word the decoder rejects changes nothing. -/
def State.withFetchWord (s : State) (nbits w : Nat) : State :=
  match fetchedOfWord (w % 2 ^ nbits) with
  | .ok (.formatS phase) => { s with phase := phase, script := .seq :: s.script }
  | .ok (.formatH p) => { s with script := .host p :: s.script }
  | .ok (.readPort x y) => { s with script := .read x y :: s.script }
  | .error _ => s

end Sys2Proof.Machine
end

