-- ==== Sys2Proof/Laws/PerInstr.lean ====
section
/-! SUPPORT. Statements about every instruction as syntax, one lemma per constructor. -/

namespace Sys2Proof.Laws.TableRow

/-- The encoding of the instruction matches a row of `opcode_table.json` that has its mnemonic;
only the read port has no encoding (R56, R58, R70, R79). -/
def Statement (i : Instr) : Prop := (Sys2Proof.encode i).inTable i.mnemonic = true

theorem reset : Statement .reset := rfl

theorem clear : Statement .clear := rfl

theorem start (n : Nat) : Statement (.start n) := by
  simp only [Statement, Sys2Proof.encode, Fetched.inTable, Fetched.vector, Instr.mnemonic]
  rfl

theorem pwrite (a : Nat) (d : Byte) : Statement (.pwrite a d) := by
  simp only [Statement, Sys2Proof.encode, Fetched.inTable, Fetched.vector, Instr.mnemonic]
  rfl

theorem noph : Statement .noph := rfl

theorem create : Statement .create := rfl

theorem pattern : Statement .pattern := rfl

theorem encode : Statement .encode := rfl

theorem place : Statement .place := rfl

theorem mask : Statement .mask := rfl

theorem format : Statement .format := rfl

theorem waitIdle : Statement .waitIdle := rfl

theorem waitFormatEmbedded : Statement .waitFormatEmbedded := rfl

theorem waitFailed : Statement .waitFailed := rfl

theorem reserved9 : Statement .reserved9 := rfl

theorem reserved10 : Statement .reserved10 := rfl

theorem reserved11 : Statement .reserved11 := rfl

theorem reserved12 : Statement .reserved12 := rfl

theorem reserved13 : Statement .reserved13 := rfl

theorem reserved14 : Statement .reserved14 := rfl

theorem reserved15 : Statement .reserved15 := rfl

theorem rdcell (x y : Nat) : Statement (.rdcell x y) := rfl

end Sys2Proof.Laws.TableRow
end

