-- ==== Sys2Proof/Safety.lean ====
section
/-! DEFINITION. What claims say about a state and a run: the invariants of the Symbol and of the
phase register (`10_state.md` R15, R21, R23, R28; `41_create.md` R89; `42_pattern.md` R101 item 4;
`70_reset_and_hazards.md` R154), and the run of a number of steps. -/

namespace Sys2Proof.Machine

/-- No symbol exists: the registers a successful `CREATE` writes are 0 (R15, R23, R143). -/
abbrev State.noSymbol (s : State) : Prop :=
  s.version = 0 ∧ s.level = 0 ∧ s.size = 0 ∧ s.mask = 0 ∧ s.mgdim = 0 ∧ s.fgdim = 0

/-- A phase from `UNINIT` to `FORMAT_EMBEDDED`, in which a symbol exists (R28). -/
abbrev State.holdsSymbol (s : State) : Prop := 2 ≤ s.phase.toNat ∧ s.phase.toNat ≤ 7

/-- The registers of a symbol agree (R28 items 1, 3, 5; R89). -/
abbrev State.symbolLegal (s : State) : Prop :=
  (1 ≤ s.version.toNat ∧ s.version.toNat ≤ 10) ∧
  s.size.toNat = sizeOfVersion s.version.toNat ∧
  s.mgdim = s.size ∧ s.fgdim = s.size ∧
  s.plen ≠ 0 ∧
  s.plen.toNat + 3 ≤ (capAt? s.config s.version.toNat s.level.toNat).getD 0

/-- The invariant of the machine: every step keeps it, and it holds right after reset. -/
structure State.Inv (s : State) : Prop where
  /-- The tables meet what the spec fixes about them (R31, R41, R43). -/
  config : configLegal s.config = true
  /-- The memories are in canonical form. -/
  memories : Memory.wf 268 s.pbuf ∧ Memory.wf 271 s.cw ∧ s.mg.wf ∧ s.fg.wf
  /-- The reserved phases are not reached (R70). -/
  phaseLegal : s.phase.toNat ≤ 8
  /-- `ERR` is non-zero if and only if `PHASE = FAILED` (R21). -/
  errIffFailed : s.err ≠ 0 ↔ s.phase = Phase.failed
  /-- Before `CREATE` and after its failure no symbol exists (R15, R143). -/
  noSymbol : s.phase.toNat ≤ 1 ∨ s.phase = Phase.failed → s.noSymbol
  /-- In `IDLE` no length is latched (R74, R75). -/
  idlePlen : s.phase = Phase.idle → s.plen = 0
  /-- The registers of the symbol agree (R28). -/
  symbol : s.holdsSymbol → s.symbolLegal
  /-- `MASK` is 0 before the operation `MASK` (R18). -/
  maskZero : s.phase.toNat ≤ 5 → s.mask = 0
  /-- Every grid cell a later rule reads has been written since the last `RESET` (R29, R154). -/
  gridsWritten : s.holdsSymbol → s.mg.full ∧ s.fg.full
  /-- Both grids are all 0 after `CREATE` (R88, R89). -/
  cleared : s.phase = Phase.uninit →
    ∀ x < 57, ∀ y < 57, s.mgAt x y = false ∧ s.fgAt x y = false
  /-- A free cell is 0 until data is placed (R101 item 4). -/
  freeCellsLight : s.phase = Phase.patternsPlaced ∨ s.phase = Phase.dataEncoded →
    ∀ x < 57, ∀ y < 57, s.fgAt x y = false → s.mgAt x y = false
  /-- Every byte `PLACE` reads has been written by `ENCODE` (R29, R33). -/
  codewords : 4 ≤ s.phase.toNat ∧ s.phase.toNat ≤ 7 →
    ∀ j < (capAt? s.config s.version.toNat s.level.toNat).getD 0,
      (Memory.find s.cw j).isSome = true

/-- What `PATTERN` asks of a state to draw its patterns: legal tables, a legal version with its size,
both grids of that size (R43, R92; R28). -/
abbrev State.patternReady (s : State) : Prop :=
  configLegal s.config = true ∧
  (1 ≤ s.version.toNat ∧ s.version.toNat ≤ 10) ∧
  s.size.toNat = 21 + 4 * (s.version.toNat - 1) ∧
  s.mgdim = s.size ∧ s.fgdim = s.size

/-- Cell `(x, y)` is in the 8×8 corner of a finder pattern and its separator, for a grid of side `n`
(R95 to R97). -/
abbrev finderCorner (n x y : Nat) : Prop :=
  x < 8 ∧ y < 8 ∨ (n ≤ x + 8 ∧ x < n) ∧ y < 8 ∨ x < 8 ∧ (n ≤ y + 8 ∧ y < n)

/-- Cell `(x, y)` is on a timing line of a grid of side `n` (R98). -/
abbrev timingCell (n x y : Nat) : Prop :=
  (8 ≤ x ∧ x + 9 ≤ n) ∧ y = 6 ∨ x = 6 ∧ (8 ≤ y ∧ y + 9 ≤ n)

/-- Cell `(x, y)` is in the 5×5 square of an alignment pattern that a version above 1 draws: its
centre is a pair from the version's list, not near a finder corner (R99, R100). -/
def State.alignmentCell (s : State) (x y : Nat) : Prop :=
  1 < s.version.toNat ∧ ∃ l, alignAt? s.config s.version.toNat = some l ∧ ∃ cx ∈ l, ∃ cy ∈ l,
    ¬(cx < 10 ∧ cy < 10 ∨ s.size.toNat ≤ cx + 10 ∧ cy < 10 ∨ cx < 10 ∧ s.size.toNat ≤ cy + 10) ∧
    (cx ≤ x + 2 ∧ x ≤ cx + 2) ∧ (cy ≤ y + 2 ∧ y ≤ cy + 2)

/-- The centres drawn with the default `ALIGN`, as R100 tabulates them. -/
def drawnTable : Nat → List (Nat × Nat)
  | 2 => [(18, 18)]
  | 3 => [(22, 22)]
  | 4 => [(26, 26)]
  | 5 => [(30, 30)]
  | 6 => [(34, 34)]
  | 7 => [(6, 22), (22, 6), (22, 22), (22, 38), (38, 22), (38, 38)]
  | 8 => [(6, 24), (24, 6), (24, 24), (24, 42), (42, 24), (42, 42)]
  | 9 => [(6, 26), (26, 6), (26, 26), (26, 46), (46, 26), (46, 46)]
  | 10 => [(6, 28), (28, 6), (28, 28), (28, 50), (50, 28), (50, 50)]
  | _ => []

/-- The `k`-th cell of the zigzag in a grid of odd side `n`, in closed form: pair `k div 2n` from the
right, column 6 passed over; upward in the pairs of even number; the right column first (R112 to
R114). -/
def zigzagCell (n k : Nat) : Nat × Nat :=
  let pair := k / (2 * n)
  let t := k % (2 * n) / 2
  let right := if n - 1 - 2 * pair ≤ 6 then n - 2 - 2 * pair else n - 1 - 2 * pair
  (right - k % 2, if pair % 2 = 0 then n - 1 - t else t)

/-- The penalty of candidate `m` scored on a copy of the grid: row by row, the cells of `MG` with the
free ones XORed with the predicate (R123, R128). -/
def State.candidatePenalty (s : State) (m : Nat) : Nat :=
  ((List.range s.size.toNat).map fun y =>
    rowScore ((List.range s.size.toNat).map fun x =>
      (s.mgAt x y ^^ (!s.fgAt x y && maskPred m x y)))).sum

/-- The score of a maximal run of `r` cells (R123). -/
def maximalRunScore (r : Nat) : Nat := if 5 ≤ r then r - 2 else 0

/-- Cell `(x, y)` is one `FORMAT` writes in a grid of side `n` (R131 to R135, R137). -/
def formatCell (n : Nat) (copy2 : FmtCopy2) (x y : Nat) : Prop :=
  (x = 8 ∧ (y < 6 ∨ y = 7 ∨ y = 8)) ∨ (y = 8 ∧ (x < 6 ∨ x = 7)) ∨
  (x = 8 ∧ n ≤ y + 6 ∧ y < n) ∨
  (copy2 = .full ∧ ((y = 8 ∧ n ≤ x + 8 ∧ x < n) ∨ (x = 8 ∧ y + 7 = n))) ∨
  (x = 8 ∧ y + 8 = n)

/-- `k` steps of the machine, stopping at the first fault or refusal. -/
abbrev runSteps (k : Nat) (s : State) : Host.Outcome State Fault Refusal :=
  Host.Core.run Sys2Proof.core k s

end Sys2Proof.Machine
end

