-- ==== Sys2Proof/Certificates/Slice0/Obligations.lean ====
section
/-! DEFINITION. The statements for the provers. -/

open Sys2Proof Sys2Proof.Machine

/-! ## Encodings and the step -/

/-- R56: the highest set bit of the vector selects the event and the lower bits are ignored. -/
def Obligations.FormatHDecodesHighestSetBit : Prop :=
  ∀ p : HostPorts,
    (p.h.getLsbD 3 = true → decodeH p = .reset) ∧
    (p.h.getLsbD 3 = false → p.h.getLsbD 2 = true → decodeH p = .clear) ∧
    (p.h.getLsbD 3 = false → p.h.getLsbD 2 = false → p.h.getLsbD 1 = true →
      decodeH p = .start p.plen.toNat) ∧
    (p.h = 0b0001#4 → decodeH p = .pwrite p.pwAddr.toNat p.pwData) ∧
    (p.h = 0b0000#4 → decodeH p = .noph)

/-- The words of format S, each as the spec's tables write it, decode to their rows. -/
def Obligations.FormatSDecodesPhaseCodes : Prop :=
  decodeS 0b0000#4 = .waitIdle ∧ decodeS 0b0001#4 = .create ∧ decodeS 0b0010#4 = .pattern ∧
  decodeS 0b0011#4 = .encode ∧ decodeS 0b0100#4 = .place ∧ decodeS 0b0101#4 = .mask ∧
  decodeS 0b0110#4 = .format ∧ decodeS 0b0111#4 = .waitFormatEmbedded ∧
  decodeS 0b1000#4 = .waitFailed ∧ decodeS 0b1001#4 = .reserved9 ∧
  decodeS 0b1010#4 = .reserved10 ∧ decodeS 0b1011#4 = .reserved11 ∧
  decodeS 0b1100#4 = .reserved12 ∧ decodeS 0b1101#4 = .reserved13 ∧
  decodeS 0b1110#4 = .reserved14 ∧ decodeS 0b1111#4 = .reserved15

/-- Every well-formed instruction, with every operand its ports admit, is read back from the trace
word it is encoded in (the word's layout is the model's, log 8). -/
def Obligations.EncodedInstructionDecodesBack : Prop :=
  ∀ i : Instr, i.wellFormed = true →
    decode (encode i) = i ∧
    wordOfFetched (encode i) < 2 ^ 41 ∧
    decodeTableWord 41 (wordOfFetched (encode i)) = some i

/-- In each format exactly one row of the opcode table accepts a vector, and it is the row of the
instruction decoded. -/
def Obligations.OneTableRowAcceptsEachVector : Prop :=
  (∀ p : HostPorts, (opcodeRows.filter fun r => r.accepts .H p.h).map Row.mnemonic =
    [(decodeH p).mnemonic]) ∧
  (∀ phase : Nibble, (opcodeRows.filter fun r => r.accepts .S phase).map Row.mnemonic =
    [(decodeS phase).mnemonic])

/-- The encoding of every instruction matches a row of the table with its mnemonic. -/
def Obligations.EncodingsMatchTheirTableRows : Prop :=
  ∀ i : Instr, Sys2Proof.Laws.TableRow.Statement i

/-- A step runs the instruction decoded from what the head of the script presents; a sequencer line
and an empty script present `PHASE` (R58; the script is the model's, log 1). -/
def Obligations.StepRunsDecodedInstruction : Prop :=
  ∀ s : State,
    (s.script = [] → step s = exec (decodeS s.phase) s) ∧
    (∀ rest, s.script = .seq :: rest → step s = exec (decodeS s.phase) { s with script := rest }) ∧
    (∀ p rest, s.script = .host p :: rest →
      step s = exec (decodeH p) { s with script := rest }) ∧
    (∀ x y rest, s.script = .read x y :: rest →
      step s = exec (.rdcell x.toNat y.toNat) { s with script := rest })

/-- The word placed for the next step is what the next step runs: on the state as it was, or, for a
format-S word, with that word in `PHASE` (log 8). -/
def Obligations.PlacedWordRunsNext : Prop :=
  ∀ (s : State) (nbits w : Nat) (i : Instr), decodeTableWord nbits w = some i →
    step (s.withFetchWord nbits w) = exec i s ∨
    ∃ phase, decodeS phase = i ∧
      step (s.withFetchWord nbits w) = exec i { s with phase := phase }

/-! ## Host events and the read port -/

/-- R74: `RESET` is accepted in every phase, zeroes every register and makes every memory cell
`any`. That an `any` cell reads as a free value numbered by the epoch, and the epoch itself, are the
model's choice (log 5). -/
def Obligations.ResetZeroesRegistersAndForgetsMemories : Prop :=
  ∀ s : State, ∃ t, exec .reset s = .next t ∧
    (t.phase = Phase.idle ∧ t.err = 0 ∧ t.version = 0 ∧ t.level = 0 ∧ t.size = 0 ∧ t.mask = 0 ∧
      t.plen = 0 ∧ t.mgdim = 0 ∧ t.fgdim = 0) ∧
    (∀ a, t.pbufAt a = Config.freePbuf t.epoch a ∧ t.cwAt a = Config.freeCw t.epoch a) ∧
    (∀ x y, t.mgAt x y = Config.freeMg t.epoch (cellIndex x y) ∧
      t.fgAt x y = Config.freeFg t.epoch (cellIndex x y)) ∧
    (t.busy = false ∧ t.done = false ∧ t.failed = false) ∧
    t = { s with
      phase := t.phase, err := t.err, version := t.version, level := t.level, size := t.size,
      mask := t.mask, plen := t.plen, mgdim := t.mgdim, fgdim := t.fgdim,
      pbuf := t.pbuf, cw := t.cw, mg := t.mg, fg := t.fg, epoch := s.epoch + 1 }

/-- R29: the state after reset. That an `any` cell of the memories reads as a free value numbered by
the epoch is the model's choice (log 5). -/
def Obligations.ResetStateHoldsResetValues : Prop :=
  (State.reset.phase = Phase.idle ∧ State.reset.err = 0 ∧ State.reset.version = 0 ∧
    State.reset.level = 0 ∧ State.reset.size = 0 ∧ State.reset.mask = 0 ∧ State.reset.plen = 0 ∧
    State.reset.mgdim = 0 ∧ State.reset.fgdim = 0) ∧
  (State.reset.busy = false ∧ State.reset.done = false ∧ State.reset.failed = false) ∧
  (∀ a, State.reset.pbufAt a = Config.freePbuf State.reset.epoch a ∧
    State.reset.cwAt a = Config.freeCw State.reset.epoch a) ∧
  (∀ x y, State.reset.mgAt x y = Config.freeMg State.reset.epoch (cellIndex x y) ∧
    State.reset.fgAt x y = Config.freeFg State.reset.epoch (cellIndex x y))

/-- R75: `CLEAR` in `IDLE`, `FORMAT_EMBEDDED` and `FAILED` returns the registers to 0 and keeps the
memories; in every other phase it changes nothing. -/
def Obligations.ClearReturnsRegistersToIdle : Prop :=
  ∀ s : State, exec .clear s = .next
    (if s.phase = Phase.idle ∨ s.phase = Phase.formatEmbedded ∨ s.phase = Phase.failed then
      { s with
        phase := Phase.idle, err := 0, version := 0, level := 0, size := 0, mask := 0, plen := 0,
        mgdim := 0, fgdim := 0 }
    else s)

/-- R76: `START n` in `IDLE` latches `n` and starts the sequencer; elsewhere it changes nothing. -/
def Obligations.StartLatchesLengthInIdle : Prop :=
  ∀ (s : State) (n : Nat), n < 65536 → exec (.start n) s = .next
    (if s.phase = Phase.idle then
      { s with plen := BitVec.ofNat 16 n, phase := Phase.started }
    else s)

/-- R77: `PWRITE a, d` in `IDLE` with `a < 268` writes that byte of `PBUF` and no other; elsewhere
it changes nothing. -/
def Obligations.PwriteWritesOneByteInIdle : Prop :=
  ∀ (s : State) (a : Nat) (d : Byte), a < 512 →
    (s.phase = Phase.idle → a < 268 → ∃ t, exec (.pwrite a d) s = .next t ∧
      t = { s with pbuf := t.pbuf } ∧ t.pbufAt a = d ∧ ∀ b, b ≠ a → t.pbufAt b = s.pbufAt b) ∧
    (s.phase ≠ Phase.idle ∨ 268 ≤ a → exec (.pwrite a d) s = .next s)

/-- R78: `NOPH` changes nothing. -/
def Obligations.NophChangesNothing : Prop := ∀ s : State, exec .noph s = .next s

/-- R79: `RDCELL` shows the cell of the finished grid inside the window, elsewhere `any`, and changes
no state of the core. The fields `rdDark` and `anyReads` and the free value that stands for `any` are
the model's choice (log 6). -/
def Obligations.RdcellShowsFinishedGridOnly : Prop :=
  ∀ (s : State) (x y : Nat), x < 64 → y < 64 → s.size.toNat ≤ 57 →
    (s.phase = Phase.formatEmbedded → x < s.size.toNat → y < s.size.toNat →
      exec (.rdcell x y) s = .next { s with rdDark := s.mgAt x y }) ∧
    (s.phase ≠ Phase.formatEmbedded ∨ s.size.toNat ≤ x ∨ s.size.toNat ≤ y →
      exec (.rdcell x y) s = .next
        { s with rdDark := Config.freeRdDark s.anyReads, anyReads := s.anyReads + 1 })

/-- While the sequencer is busy, a host line without `rst` and a read line change nothing but the
model's own script (log 1) and fields of the read port (log 6). -/
def Obligations.BusyIgnoresHostLines : Prop :=
  ∀ (s : State) (rest : List Line), s.busy = true →
    (∀ p, s.script = .host p :: rest → p.h.getLsbD 3 = false →
      step s = .next { s with script := rest }) ∧
    (∀ x y, s.script = .read x y :: rest →
      step s = .next { s with
        script := rest, rdDark := Config.freeRdDark s.anyReads, anyReads := s.anyReads + 1 })

/-- R22: the three flags are functions of `PHASE`. -/
def Obligations.FlagsAreFunctionsOfPhase : Prop :=
  ∀ s : State,
    (s.outputs.busy = true ↔ s.phase = Phase.started ∨ s.phase = Phase.uninit ∨
      s.phase = Phase.patternsPlaced ∨ s.phase = Phase.dataEncoded ∨ s.phase = Phase.dataPlaced ∨
      s.phase = Phase.masked) ∧
    (s.outputs.done = true ↔ s.phase = Phase.formatEmbedded) ∧
    (s.outputs.failed = true ↔ s.phase = Phase.failed)

/-! ## CREATE -/

/-- R84: an empty payload raises `InputError`; nothing but `ERR` and `PHASE` is written. -/
def Obligations.EmptyPayloadRaisesInputError : Prop :=
  ∀ s : State, s.plen = 0 → exec .create s = .next { s with err := 1#2, phase := Phase.failed }

/-- R85, R87, R88: `CREATE` takes the smallest version and in it the strongest level whose capacity
holds the payload and 3 bytes, sizes the symbol and clears both grids; it raises `CapacityError`
where no pair does. -/
def Obligations.CreateTakesSmallestVersionStrongestLevel : Prop :=
  ∀ s : State, s.plen ≠ 0 →
    (∀ v e c, capAt? s.config v e = some c → s.plen.toNat + 3 ≤ c →
      (∀ v' e' c', capAt? s.config v' e' = some c' → v' < v ∨ v' = v ∧ e < e' →
        c' < s.plen.toNat + 3) →
      ∃ t, exec .create s = .next t ∧
        t = { s with
          version := t.version, level := t.level, size := t.size, mask := 0, mgdim := t.size,
          fgdim := t.size, mg := t.mg, fg := t.fg, phase := Phase.uninit } ∧
        t.version.toNat = v ∧ t.level.toNat = e ∧ t.size.toNat = 21 + 4 * (v - 1) ∧
        ∀ x < 57, ∀ y < 57, t.mgAt x y = false ∧ t.fgAt x y = false) ∧
    ((∀ v e c, capAt? s.config v e = some c → c < s.plen.toNat + 3) →
      exec .create s = .next { s with err := 2#2, phase := Phase.failed })

/-- With tables that meet the spec's constraints, a non-empty payload is rejected exactly when its
length plus 3 exceeds 271. -/
def Obligations.CapacityErrorExactlyAbove271 : Prop :=
  ∀ s : State, configLegal s.config = true → s.plen ≠ 0 →
    (exec .create s = .next { s with err := 2#2, phase := Phase.failed } ↔
      271 < s.plen.toNat + 3)

/-- R90: the selection for every length with the default `CAP`, whose rows 3 to 10 are the spec's
own, from general knowledge. -/
def Obligations.DefaultSelectionForEveryLength : Prop :=
  ∀ s : State, s.config.cap = defaultCap →
    (∀ lo hi v e c n,
      (lo, hi, v, e, c, n) ∈ ([(1, 4, 1, 3, 7, 21), (5, 8, 1, 2, 11, 21), (9, 11, 1, 1, 14, 21),
        (12, 14, 1, 0, 17, 21), (15, 17, 2, 2, 20, 25), (18, 23, 2, 1, 26, 25),
        (24, 29, 2, 0, 32, 25), (30, 39, 3, 1, 42, 29), (40, 50, 3, 0, 53, 29),
        (51, 59, 4, 1, 62, 33), (60, 75, 4, 0, 78, 33), (76, 81, 5, 1, 84, 37),
        (82, 103, 5, 0, 106, 37), (104, 131, 6, 0, 134, 41), (132, 151, 7, 0, 154, 45),
        (152, 189, 8, 0, 192, 49), (190, 227, 9, 0, 230, 53), (228, 268, 10, 0, 271, 57)] :
        List (Nat × Nat × Nat × Nat × Nat × Nat)) →
      lo ≤ s.plen.toNat → s.plen.toNat ≤ hi →
      ∃ t, exec .create s = .next t ∧ t.version.toNat = v ∧ t.level.toNat = e ∧
        capAt? t.config v e = some c ∧ t.size.toNat = n ∧ t.phase = Phase.uninit) ∧
    (269 ≤ s.plen.toNat →
      exec .create s = .next { s with err := 2#2, phase := Phase.failed })

/-- R89: what a successful `CREATE` leaves, from a state of the invariant. -/
def Obligations.CreateEstablishesSymbol : Prop :=
  ∀ s t : State, s.Inv → s.phase = Phase.started → exec .create s = .next t →
    t.phase = Phase.uninit →
    (1 ≤ t.version.toNat ∧ t.version.toNat ≤ 10) ∧ t.level.toNat ≤ 3 ∧
    t.size.toNat = 21 + 4 * (t.version.toNat - 1) ∧ t.mask = 0 ∧
    t.mgdim = t.size ∧ t.fgdim = t.size ∧
    (∃ c, capAt? t.config t.version.toNat t.level.toNat = some c ∧ t.plen.toNat + 3 ≤ c) ∧
    (1 ≤ t.plen.toNat ∧ t.plen.toNat ≤ 268) ∧
    (∀ x < 57, ∀ y < 57, t.mgAt x y = false ∧ t.fgAt x y = false) ∧ t.err = 0 ∧
    t.plen = s.plen ∧ t.pbuf = s.pbuf ∧ t.cw = s.cw

/-! ## PATTERN -/

/-- R92: grids whose dimension is not `SIZE` raise `InternalError` before any cell is written. -/
def Obligations.DimensionMismatchRaisesInternalError : Prop :=
  ∀ s : State, s.mgdim ≠ s.size ∨ s.fgdim ≠ s.size →
    exec .pattern s = .next { s with err := 3#2, phase := Phase.failed }

/-- R94 to R96: the three finder patterns, marked function-owned. -/
def Obligations.PatternDrawsFinders : Prop :=
  ∀ s : State, s.patternReady → ∃ t, exec .pattern s = .next t ∧
    ∀ ox oy, (ox, oy) ∈ [(0, 0), (s.size.toNat - 7, 0), (0, s.size.toNat - 7)] →
      ∀ dx < 7, ∀ dy < 7,
        t.fgAt (ox + dx) (oy + dy) = true ∧
        (t.mgAt (ox + dx) (oy + dy) = false ↔
          max ((dx : Int) - 3).natAbs ((dy : Int) - 3).natAbs = 2)

/-- R97: the separators, light and marked function-owned. -/
def Obligations.PatternDrawsSeparators : Prop :=
  ∀ s : State, s.patternReady → ∃ t, exec .pattern s = .next t ∧
    ∀ x y,
      (x = 7 ∧ y ≤ 7 ∨ x ≤ 6 ∧ y = 7) ∨
      (x = s.size.toNat - 8 ∧ y ≤ 7 ∨ (s.size.toNat - 7 ≤ x ∧ x < s.size.toNat) ∧ y = 7) ∨
      (x = 7 ∧ (s.size.toNat - 8 ≤ y ∧ y < s.size.toNat) ∨ x ≤ 6 ∧ y = s.size.toNat - 8) →
      t.fgAt x y = true ∧ t.mgAt x y = false

/-- R98: the timing lines, even index dark (the spec's decision D22); where an alignment pattern
covers a timing cell the alignment pattern, drawn later, stands (R93), and with the default `ALIGN`
it agrees. -/
def Obligations.PatternDrawsTimingLines : Prop :=
  ∀ s : State, s.patternReady → ∃ t, exec .pattern s = .next t ∧
    ∀ i, 8 ≤ i → i + 9 ≤ s.size.toNat →
      (t.fgAt i 6 = true ∧ t.fgAt 6 i = true) ∧
      (s.config.align = defaultAlign ∨ ¬s.alignmentCell i 6 →
        (t.mgAt i 6 = true ↔ i % 2 = 0)) ∧
      (s.config.align = defaultAlign ∨ ¬s.alignmentCell 6 i →
        (t.mgAt 6 i = true ↔ i % 2 = 0))

/-- The alignment patterns of the default `ALIGN`: the 5×5 template at each centre that R100
tabulates. -/
def Obligations.PatternDrawsDefaultAlignment : Prop :=
  ∀ s : State, s.patternReady → s.config.align = defaultAlign →
    ∃ t, exec .pattern s = .next t ∧
      ∀ c ∈ drawnTable s.version.toNat, ∀ i < 5, ∀ j < 5,
        t.fgAt (c.1 + i - 2) (c.2 + j - 2) = true ∧
        (t.mgAt (c.1 + i - 2) (c.2 + j - 2) = false ↔
          max ((i : Int) - 2).natAbs ((j : Int) - 2).natAbs = 1)

/-- The frame of `PATTERN`: exactly the cells of its patterns become function-owned, no other cell
of either grid changes, and no register but `PHASE`. -/
def Obligations.PatternMarksExactlyItsCells : Prop :=
  ∀ s : State, s.patternReady → ∃ t, exec .pattern s = .next t ∧
    t = { s with mg := t.mg, fg := t.fg, phase := Phase.patternsPlaced } ∧
    ∀ x < 57, ∀ y < 57,
      (t.fgAt x y = true ↔
        finderCorner s.size.toNat x y ∨ timingCell s.size.toNat x y ∨ s.alignmentCell x y ∨
          s.fgAt x y = true) ∧
      (¬(finderCorner s.size.toNat x y ∨ timingCell s.size.toNat x y ∨ s.alignmentCell x y) →
        t.mgAt x y = s.mgAt x y)

/-- The number of function cells after `PATTERN` on cleared grids, for each version with the default
`ALIGN`. -/
def Obligations.DefaultFunctionCellCounts : Prop :=
  ∀ s : State, s.patternReady → s.config.align = defaultAlign →
    (∀ x < 57, ∀ y < 57, s.fgAt x y = false) →
    ∃ t, exec .pattern s = .next t ∧
      some ((windowCells s.size.toNat).countP fun c => t.fgAt c.1 c.2) =
        [202, 235, 243, 251, 259, 267, 390, 398, 406, 414][s.version.toNat - 1]?

/-- The cells `FORMAT` will claim are free after `PATTERN` on cleared grids, with the default
`ALIGN`: they take data and masks like any other. -/
def Obligations.FormatCellsAreFreeAfterPattern : Prop :=
  ∀ s : State, s.patternReady → s.config.align = defaultAlign →
    (∀ x < 57, ∀ y < 57, s.fgAt x y = false) →
    ∃ t, exec .pattern s = .next t ∧
      ∀ x < 57, ∀ y < 57, formatCell s.size.toNat .full x y → t.fgAt x y = false

/-! ## ENCODE -/

/-- R104 to R106: the mode indicator, the length field (its low 8 bits, the spec's decision D16) and
the payload bits of the stream that `ENCODE` leaves in `CW`. -/
def Obligations.EncodeWritesHeaderAndPayloadBits : Prop :=
  ∀ (s : State) (c : Nat), capAt? s.config s.version.toNat s.level.toNat = some c →
    s.plen.toNat + 3 ≤ c →
    ∃ t, exec .encode s = .next t ∧
      (streamBit t.cwAt 0 = false ∧ streamBit t.cwAt 1 = true ∧ streamBit t.cwAt 2 = false ∧
        streamBit t.cwAt 3 = false) ∧
      (∀ j < 8, streamBit t.cwAt (4 + j) = (s.plen.toNat % 256).testBit (7 - j)) ∧
      ∀ i < s.plen.toNat, ∀ j < 8,
        streamBit t.cwAt (12 + 8 * i + j) = (s.pbufAt i).getLsbD (7 - j)

/-- R110: the bytes of `CW` in closed form, the bytes beyond the capacity and everything else
unchanged. -/
def Obligations.EncodeClosedForm : Prop :=
  ∀ (s : State) (c : Nat), capAt? s.config s.version.toNat s.level.toNat = some c →
    s.plen ≠ 0 → s.plen.toNat + 3 ≤ c →
    ∃ t, exec .encode s = .next t ∧ t = { s with cw := t.cw, phase := Phase.dataEncoded } ∧
      t.cwAt 0 = BitVec.ofNat 8 (0x40 ||| s.plen.toNat % 256 / 16) ∧
      t.cwAt 1 =
        BitVec.ofNat 8 ((s.plen.toNat % 256 % 16 * 16) ||| (s.pbufAt 0).toNat / 16) ∧
      (∀ i, 1 ≤ i → i + 1 ≤ s.plen.toNat → t.cwAt (i + 1) =
        BitVec.ofNat 8 (((s.pbufAt (i - 1)).toNat % 16 * 16) ||| (s.pbufAt i).toNat / 16)) ∧
      t.cwAt (s.plen.toNat + 1) =
        BitVec.ofNat 8 ((s.pbufAt (s.plen.toNat - 1)).toNat % 16 * 16) ∧
      (∀ k, k + s.plen.toNat + 2 < c →
        t.cwAt (s.plen.toNat + 2 + k) = if k % 2 = 0 then 0xEC#8 else 0x11#8) ∧
      ∀ j, c ≤ j → t.cwAt j = s.cwAt j

/-! ## PLACE -/

/-- R112 to R114: the visiting order in closed form, for every odd side from 7 up. -/
def Obligations.ZigzagVisitsInClosedForm : Prop :=
  ∀ n, n % 2 = 1 → 7 ≤ n → visits n = (List.range (n * (n - 1))).map (zigzagCell n)

/-- Every cell of the window is visited once, but those of column 6, which are never visited. -/
def Obligations.EveryColumnButSixVisitedOnce : Prop :=
  ∀ n, n % 2 = 1 → 7 ≤ n → ∀ x < n, ∀ y < n,
    (visits n).count (x, y) = if x = 6 then 0 else 1

/-- R115: a visited free cell receives the next stream bit, or 0 when none remains; a function-owned
cell is passed over; nothing else changes. -/
def Obligations.PlaceGivesFreeCellsTheStream : Prop :=
  ∀ (s : State) (c : Nat), capAt? s.config s.version.toNat s.level.toNat = some c →
    s.size.toNat = 21 + 4 * (s.version.toNat - 1) →
    ∃ t, exec .place s = .next t ∧ t = { s with mg := t.mg, phase := Phase.dataPlaced } ∧
      (∀ pre x y post, visits s.size.toNat = pre ++ (x, y) :: post → s.fgAt x y = false →
        t.mgAt x y =
          if (pre.countP fun p => !s.fgAt p.1 p.2) < 8 * c then
            (s.cwAt ((pre.countP fun p => !s.fgAt p.1 p.2) / 8)).getLsbD
              (7 - (pre.countP fun p => !s.fgAt p.1 p.2) % 8)
          else false) ∧
      ∀ x < 57, ∀ y < 57, s.fgAt x y = true ∨ (x, y) ∉ visits s.size.toNat →
        t.mgAt x y = s.mgAt x y

/-- R161: a function-owned cell keeps its value through `PLACE` and `MASK`. -/
def Obligations.FunctionCellsSurvivePlaceAndMask : Prop :=
  ∀ s t u : State, exec .place s = .next t → exec .mask t = .next u →
    ∀ x < 57, ∀ y < 57, s.fgAt x y = true → u.mgAt x y = s.mgAt x y ∧ u.fgAt x y = true

/-! ## MASK -/

/-- R119: the eight predicates; 3 to 7 are the spec's decision D25. -/
def Obligations.MaskPredicateTable : Prop :=
  ∀ x y : Nat,
    (maskPred 0 x y = true ↔ (x + y) % 2 = 0) ∧
    (maskPred 1 x y = true ↔ y % 2 = 0) ∧
    (maskPred 2 x y = true ↔ x % 3 = 0) ∧
    (maskPred 3 x y = true ↔ (x + y) % 3 = 0) ∧
    (maskPred 4 x y = true ↔ (y / 2 + x / 3) % 2 = 0) ∧
    (maskPred 5 x y = true ↔ x * y % 2 + x * y % 3 = 0) ∧
    (maskPred 6 x y = true ↔ (x * y % 2 + x * y % 3) % 2 = 0) ∧
    (maskPred 7 x y = true ↔ ((x + y) % 2 + x * y % 3) % 2 = 0)

/-- R121: applying a mask twice leaves every cell as it was. -/
def Obligations.ApplyMaskTwiceRestores : Prop :=
  ∀ (fg : Nat → Nat → Bool) (free : Nat → Bool) (n m : Nat) (g : Grid), n ≤ 57 →
    ∀ x < 57, ∀ y < 57,
      (applyMask fg free n m (applyMask fg free n m g)).read free x y = g.read free x y

/-- R123: the penalty is the sum, over the rows, of the scores of the maximal runs of equal cells. -/
def Obligations.PenaltySumsMaximalRunScores : Prop :=
  ∀ (free : Nat → Bool) (n : Nat) (g : Grid),
    penalty free n g =
      ((List.range n).map fun y =>
        ((((List.range n).map fun x => g.read free x y).splitBy (· == ·)).map
          fun run => maximalRunScore run.length).sum).sum

/-- R127: the bound of the penalty. -/
def Obligations.PenaltyAtMostRowsTimesWidthLessTwo : Prop :=
  ∀ (free : Nat → Bool) (n : Nat) (g : Grid),
    penalty free n g ≤ n * (n - 2) ∧ (n ≤ 57 → penalty free n g ≤ 3135)

/-- R128: the in-place trial of the eight masks does what scoring copies does: `MASK` is the least
index of the least penalty, the free cells of the window are XORed with its predicate, and nothing
else changes. -/
def Obligations.MaskCommitsLeastPenaltyCandidate : Prop :=
  ∀ s : State, s.size.toNat ≤ 57 → ∃ t, exec .mask s = .next t ∧
    t = { s with mg := t.mg, mask := t.mask, phase := Phase.masked } ∧
    (∀ m < 8, s.candidatePenalty t.mask.toNat ≤ s.candidatePenalty m) ∧
    (∀ m < t.mask.toNat, s.candidatePenalty t.mask.toNat < s.candidatePenalty m) ∧
    ∀ x < 57, ∀ y < 57, t.mgAt x y =
      if x < s.size.toNat ∧ y < s.size.toNat ∧ s.fgAt x y = false ∧
          maskPred t.mask.toNat x y = true then !s.mgAt x y
      else s.mgAt x y

/-! ## FORMAT -/

/-- R130 to R135: both copies of the format word (the order of its bits and the second copy are the
spec's decisions D18 and D19) and the dark module, marked function-owned. -/
def Obligations.FormatWritesWordTwiceAndDarkModule : Prop :=
  ∀ (s : State) (n : Nat) (f : FormatWord), s.size.toNat = n → 21 ≤ n → n ≤ 57 →
    f = fmtAt s.config s.level s.mask →
    ∃ t, exec .format s = .next t ∧
      (∀ i < 6, t.mgAt 8 i = f.getLsbD i ∧ t.fgAt 8 i = true) ∧
      (t.mgAt 8 7 = f.getLsbD 6 ∧ t.fgAt 8 7 = true) ∧
      (t.mgAt 8 8 = f.getLsbD 7 ∧ t.fgAt 8 8 = true) ∧
      (t.mgAt 7 8 = f.getLsbD 8 ∧ t.fgAt 7 8 = true) ∧
      (∀ i, 9 ≤ i → i ≤ 14 → t.mgAt (14 - i) 8 = f.getLsbD i ∧ t.fgAt (14 - i) 8 = true) ∧
      (∀ i, 9 ≤ i → i ≤ 14 →
        t.mgAt 8 (n - 15 + i) = f.getLsbD i ∧ t.fgAt 8 (n - 15 + i) = true) ∧
      (s.config.fmtCopy2 = .full →
        (∀ i < 8, t.mgAt (n - 1 - i) 8 = f.getLsbD i ∧ t.fgAt (n - 1 - i) 8 = true) ∧
        (t.mgAt 8 (n - 7) = f.getLsbD 8 ∧ t.fgAt 8 (n - 7) = true)) ∧
      (t.mgAt 8 (n - 8) = true ∧ t.fgAt 8 (n - 8) = true)

/-- The frame of `FORMAT`: no cell but those of the format word and the dark module changes in
either grid, and no register but `PHASE`. -/
def Obligations.FormatLeavesOtherCells : Prop :=
  ∀ s : State, 21 ≤ s.size.toNat → s.size.toNat ≤ 57 → ∃ t, exec .format s = .next t ∧
    t = { s with mg := t.mg, fg := t.fg, phase := Phase.formatEmbedded } ∧
    ∀ x < 57, ∀ y < 57, ¬formatCell s.size.toNat s.config.fmtCopy2 x y →
      t.mgAt x y = s.mgAt x y ∧ t.fgAt x y = s.fgAt x y

/-! ## Rows without a step, and versions that are no index -/

/-- The three `WAIT` rows leave the state as it is (log 2). -/
def Obligations.WaitRowsChangeNothing : Prop :=
  ∀ s : State, exec .waitIdle s = .next s ∧ exec .waitFormatEmbedded s = .next s ∧
    exec .waitFailed s = .next s

/-- The seven `RESERVED` rows are stuck, and so is the sequencer at a reserved phase (log 3). -/
def Obligations.ReservedPhasesAreStuck : Prop :=
  ∀ s : State,
    (exec .reserved9 s = .fault (.stuck 9#4) ∧ exec .reserved10 s = .fault (.stuck 10#4) ∧
      exec .reserved11 s = .fault (.stuck 11#4) ∧ exec .reserved12 s = .fault (.stuck 12#4) ∧
      exec .reserved13 s = .fault (.stuck 13#4) ∧ exec .reserved14 s = .fault (.stuck 14#4) ∧
      exec .reserved15 s = .fault (.stuck 15#4)) ∧
    (9 ≤ s.phase.toNat → s.script = [] → step s = .fault (.stuck s.phase))

/-- No step but a `RESET` leaves a reserved phase. -/
def Obligations.OnlyResetLeavesReservedPhase : Prop :=
  ∀ s t : State, 9 ≤ s.phase.toNat → step s = .next t →
    t.phase = s.phase ∨ decode s.fetch.1 = .reset

/-- A table read with `VERSION` 0 or 11 to 15 is refused (log 9). -/
def Obligations.VersionOutOfRangeIsRefused : Prop :=
  ∀ s : State, s.version = 0 ∨ 11 ≤ s.version.toNat →
    exec .encode s = .refused (.tableIndex s.version) ∧
    exec .place s = .refused (.tableIndex s.version) ∧
    (s.version ≠ 0 → s.mgdim = s.size → s.fgdim = s.size →
      exec .pattern s = .refused (.tableIndex s.version))

/-! ## The whole machine -/

/-- The state right after reset meets the invariant. -/
def Obligations.ResetMeetsInvariant : Prop := State.reset.Inv

/-- Every step keeps the invariant. -/
def Obligations.StepKeepsInvariant : Prop :=
  ∀ s t : State, s.Inv → step s = .next t → t.Inv

/-- No state of the invariant stops: the fault and the refusals are of other states only. That a
waiting sequencer has a step, which changes nothing, is the model's reading of R80 and R82
(log 2). -/
def Obligations.InvariantStateAlwaysSteps : Prop :=
  ∀ s : State, s.Inv → ∃ t, step s = .next t

/-- A sequencer step goes one phase forward or to `FAILED`, or waits (log 2); a host step changes `PHASE` only
by an accepted `START`, by `CLEAR` or by `RESET`. -/
def Obligations.PhaseMovesOneForwardOrFails : Prop :=
  ∀ s t : State, step s = .next t →
    (∀ phase, s.fetch.1 = .formatS phase →
      if s.busy = true then t.phase = s.phase + 1 ∨ t.phase = Phase.failed
      else t.phase = s.phase) ∧
    (∀ p, s.fetch.1 = .formatH p →
      t.phase = s.phase ∨
      (s.phase = Phase.idle ∧ (∃ n, decodeH p = .start n) ∧ t.phase = Phase.started) ∨
      ((decodeH p = .clear ∨ decodeH p = .reset) ∧ t.phase = Phase.idle)) ∧
    (∀ x y, s.fetch.1 = .readPort x y → t.phase = s.phase)

/-- R147: a recorded error stays until the host clears it. -/
def Obligations.ErrorStaysUntilHostClears : Prop :=
  ∀ s t : State, s.Inv → s.err ≠ 0 → step s = .next t →
    decode s.fetch.1 ≠ .clear → decode s.fetch.1 ≠ .reset →
    t.err = s.err ∧ t.phase = Phase.failed

/-- R158: outside `IDLE` no step but a `RESET` changes `PBUF`, and none but `CLEAR` and `RESET` changes
the latched length. -/
def Obligations.PayloadIsStableOutsideIdle : Prop :=
  ∀ s t : State, s.phase ≠ Phase.idle → step s = .next t → decode s.fetch.1 ≠ .reset →
    t.pbuf = s.pbuf ∧ (decode s.fetch.1 ≠ .clear → t.plen = s.plen)

/-- A function mark stays until the next `CREATE` or `RESET`. -/
def Obligations.FunctionMarkStaysUntilCreate : Prop :=
  ∀ s t : State, step s = .next t → decode s.fetch.1 ≠ .create → decode s.fetch.1 ≠ .reset →
    ∀ x < 57, ∀ y < 57, s.fgAt x y = true → t.fgAt x y = true

/-- From `STARTED`, a payload of 1 to 268 bytes is finished in exactly six sequencer steps, and any
other fails in one. That an empty script steps the sequencer is the model's choice (log 1). -/
def Obligations.RunEndsInSixStepsOrFailsInOne : Prop :=
  ∀ s : State, s.Inv → s.phase = Phase.started → s.script = [] →
    (1 ≤ s.plen.toNat → s.plen.toNat ≤ 268 →
      (∃ t, runSteps 6 s = .next t ∧ t.phase = Phase.formatEmbedded ∧ t.err = 0) ∧
      ∀ k < 6, ∃ t, runSteps k s = .next t ∧ t.busy = true) ∧
    (s.plen = 0 → ∃ t, runSteps 1 s = .next t ∧ t.phase = Phase.failed ∧ t.err = 1) ∧
    (269 ≤ s.plen.toNat → ∃ t, runSteps 1 s = .next t ∧ t.phase = Phase.failed ∧ t.err = 2)

/-- R152: what a run leaves is a function of the payload, its length and the configuration
alone. That an empty script steps the sequencer is the model's choice (log 1). -/
def Obligations.RunDependsOnPayloadAlone : Prop :=
  ∀ s s' : State, s.Inv → s'.Inv → s.phase = Phase.started → s'.phase = Phase.started →
    s.script = [] → s'.script = [] → s.config = s'.config → s.plen = s'.plen →
    (∀ a < s.plen.toNat, s.pbufAt a = s'.pbufAt a) →
    ∃ t t', runSteps 6 s = .next t ∧ runSteps 6 s' = .next t' ∧
      t.phase = t'.phase ∧ t.err = t'.err ∧ t.version = t'.version ∧ t.level = t'.level ∧
      t.size = t'.size ∧ t.mask = t'.mask ∧ t.plen = t'.plen ∧ t.mgdim = t'.mgdim ∧
      t.fgdim = t'.fgdim ∧
      (∀ x < t.size.toNat, ∀ y < t.size.toNat,
        t.mgAt x y = t'.mgAt x y ∧ t.fgAt x y = t'.fgAt x y) ∧
      ∀ c, t.phase = Phase.formatEmbedded →
        capAt? t.config t.version.toNat t.level.toNat = some c → ∀ j < c, t.cwAt j = t'.cwAt j
end

