-- ==== Sys2Proof/Laws/Grid.lean ====
section
/-! SUPPORT. Laws of the grid memories: read after write, the canonical form, the window. -/

namespace Sys2Proof.Machine

theorem cellIndex_lt {x y : Nat} (hx : x < 57) (hy : y < 57) : cellIndex x y < gridCells := by
  unfold cellIndex; simp only [gridCells]; omega

theorem cellIndex_inj {x y x' y' : Nat} (hx : x < 57) (hx' : x' < 57)
    (h : cellIndex x y = cellIndex x' y') : x = x' ∧ y = y' := by
  unfold cellIndex at h; omega

theorem Grid.read_set_same (g : Grid) (free : Nat → Bool) {x y : Nat} (b : Bool)
    (hx : x < 57) (hy : y < 57) : (g.set x y b).read free x y = b := by
  have hk := cellIndex_lt hx hy
  cases b <;> simp [Grid.read, Grid.set, hk]

theorem Grid.read_set_of_index_ne (g : Grid) (free : Nat → Bool) {x y x' y' : Nat} (b : Bool)
    (h : cellIndex x y ≠ cellIndex x' y') : (g.set x y b).read free x' y' = g.read free x' y' := by
  by_cases hk : cellIndex x' y' < gridCells
  · cases b <;> simp [Grid.read, Grid.set, Ne.symm h, hk]
  · have h1 : ∀ v : BitVec gridCells, v.getLsbD (cellIndex x' y') = false :=
      fun v => BitVec.getLsbD_of_ge v _ (Nat.le_of_not_lt hk)
    simp [Grid.read, h1]

theorem Grid.read_set_other (g : Grid) (free : Nat → Bool) {x y x' y' : Nat} (b : Bool)
    (hx : x < 57) (hx' : x' < 57) (h : (x, y) ≠ (x', y')) :
    (g.set x y b).read free x' y' = g.read free x' y' := by
  apply Grid.read_set_of_index_ne
  intro e
  obtain ⟨rfl, rfl⟩ := cellIndex_inj hx hx' e
  exact h rfl

theorem Grid.read_set (g : Grid) (free : Nat → Bool) {x y x' y' : Nat} (b : Bool)
    (hx : x < 57) (hy : y < 57) (hx' : x' < 57) :
    (g.set x y b).read free x' y' = if (x, y) = (x', y') then b else g.read free x' y' := by
  split
  · rename_i h; cases h; exact g.read_set_same free b hx hy
  · rename_i h; exact g.read_set_other free b hx hx' h

@[simp] theorem Grid.read_cleared (free : Nat → Bool) {x y : Nat} (hx : x < 57) (hy : y < 57) :
    Grid.cleared.read free x y = false := by
  have hk := cellIndex_lt hx hy
  simp [Grid.read, Grid.cleared, hk]

@[simp] theorem Grid.read_unwritten (free : Nat → Bool) (x y : Nat) :
    Grid.unwritten.read free x y = free (cellIndex x y) := by
  simp [Grid.read, Grid.unwritten]

/-- Where every cell of the storage is written, the free values play no part. -/
theorem Grid.read_of_full {g : Grid} (h : g.full) (free free' : Nat → Bool) {x y : Nat}
    (hx : x < 57) (hy : y < 57) : g.read free x y = g.read free' x y := by
  have hk := cellIndex_lt hx hy
  simp only [Grid.full] at h
  simp [Grid.read, h, hk]

theorem Grid.wf_cleared : Grid.cleared.wf := by simp [Grid.wf, Grid.cleared]

theorem Grid.wf_unwritten : Grid.unwritten.wf := by simp [Grid.wf, Grid.unwritten]

theorem Grid.full_cleared : Grid.cleared.full := rfl

theorem Grid.wf_of_full {g : Grid} (h : g.full) : g.wf := by
  simp only [Grid.full] at h
  simp [Grid.wf, h]

/-- A cell write keeps the canonical form. -/
theorem Grid.wf_set {g : Grid} (h : g.wf) (x y : Nat) (b : Bool) : (g.set x y b).wf := by
  simp only [Grid.wf] at h ⊢
  apply BitVec.eq_of_getLsbD_eq
  intro i hi
  have hi' := congrArg (fun v => v.getLsbD i) h
  simp only [BitVec.getLsbD_and, BitVec.getLsbD_not, hi, decide_true, Bool.true_and] at hi'
  cases b <;>
    simp only [Grid.set, if_true, if_false, Bool.false_eq_true, BitVec.getLsbD_and,
      BitVec.getLsbD_or, BitVec.getLsbD_not, BitVec.getLsbD_twoPow, hi, decide_true,
      Bool.true_and] <;>
    revert hi' <;>
    cases g.value.getLsbD i <;> cases g.written.getLsbD i <;>
    simp

/-- A cell write leaves a wholly written storage wholly written. -/
theorem Grid.full_set {g : Grid} (h : g.full) (x y : Nat) (b : Bool) : (g.set x y b).full := by
  simp only [Grid.full] at h ⊢
  simp [Grid.set, h]

theorem mem_windowCells {n : Nat} {c : Nat × Nat} : c ∈ windowCells n ↔ c.1 < n ∧ c.2 < n := by
  obtain ⟨x, y⟩ := c
  simp only [windowCells, List.mem_flatMap, List.mem_range, List.mem_map, Prod.mk.injEq]
  constructor
  · rintro ⟨y', hy, x', hx, rfl, rfl⟩; exact ⟨hx, hy⟩
  · rintro ⟨hx, hy⟩; exact ⟨y, hy, x, hx, rfl, rfl⟩

theorem nodup_windowCells (n : Nat) : (windowCells n).Nodup := by
  unfold windowCells
  rw [List.nodup_flatMap]
  refine ⟨fun y _ => ?_, ?_⟩
  · exact (List.nodup_range).map (fun a b h => by simpa using h)
  · refine (List.nodup_range).imp ?_
    intro a b hab c hc hc'
    simp only [List.mem_map, List.mem_range] at hc hc'
    obtain ⟨_, _, rfl⟩ := hc
    obtain ⟨_, _, h⟩ := hc'
    exact hab (by simpa using (congrArg Prod.snd h).symm)

/-- What `CellWrite.inWindow` says. -/
theorem CellWrite.inWindow_iff {n : Nat} {w : CellWrite} :
    w.inWindow n = true ↔ 0 ≤ w.x ∧ w.x < n ∧ 0 ≤ w.y ∧ w.y < n ∧ n ≤ 57 := by
  simp [CellWrite.inWindow, Config.gridSide, and_assoc]

end Sys2Proof.Machine
end

