-- ==== Sys2Proof/Laws/Memory.lean ====
section
/-! SUPPORT. Laws of the byte memories: read after write, and that every operation keeps the
canonical form. -/

namespace Sys2Proof.Machine

@[simp] theorem Memory.find_nil (a : Nat) : Memory.find [] a = none := rfl

@[simp] theorem Memory.find_write_same (m : Memory) (a : Nat) (d : Byte) :
    Memory.find (Memory.write m a d) a = some d := by
  induction m with
  | nil => simp [Memory.write, Memory.find]
  | cons c m ih =>
    obtain ⟨k, e⟩ := c
    simp only [Memory.write]
    split
    · simp [Memory.find]
    · split
      · simp [Memory.find]
      · rename_i h
        simp [Memory.find, Ne.symm h, ih]

theorem Memory.find_write_other (m : Memory) {a b : Nat} (d : Byte) (h : a ≠ b) :
    Memory.find (Memory.write m a d) b = Memory.find m b := by
  induction m with
  | nil => simp [Memory.write, Memory.find, h]
  | cons c m ih =>
    obtain ⟨k, e⟩ := c
    simp only [Memory.write]
    split
    · simp [Memory.find, h]
    · split
      · rename_i hk; subst hk; simp [Memory.find, h]
      · simp [Memory.find, ih]

theorem Memory.find_write (m : Memory) (a b : Nat) (d : Byte) :
    Memory.find (Memory.write m a d) b = if a = b then some d else Memory.find m b := by
  split
  · rename_i h; subst h; simp
  · rename_i h; exact Memory.find_write_other m d h

theorem Memory.mem_write {m : Memory} {a : Nat} {d : Byte} {c : Host.Cell}
    (h : c ∈ Memory.write m a d) : c = (a, d) ∨ c ∈ m := by
  induction m with
  | nil => simpa [Memory.write] using h
  | cons k m ih =>
    simp only [Memory.write] at h
    split at h
    · simpa using h
    · split at h
      · rcases List.mem_cons.mp h with h | h
        · exact .inl h
        · exact .inr (List.mem_cons_of_mem _ h)
      · rcases List.mem_cons.mp h with h | h
        · exact .inr (by simp [h])
        · rcases ih h with h | h
          · exact .inl h
          · exact .inr (List.mem_cons_of_mem _ h)

theorem Memory.wf_nil (depth : Nat) : Memory.wf depth [] := by simp [Memory.wf]

/-- A byte write inside the depth keeps the canonical form. -/
theorem Memory.wf_write {depth : Nat} {m : Memory} (h : Memory.wf depth m) {a : Nat} (d : Byte)
    (ha : a < depth) : Memory.wf depth (Memory.write m a d) := by
  refine ⟨?_, fun c hc => ?_⟩
  · have hp := h.1
    clear h
    induction m with
    | nil => simp [Memory.write]
    | cons k m ih =>
      rw [List.pairwise_cons] at hp
      simp only [Memory.write]
      split
      · rename_i hlt
        rw [List.pairwise_cons, List.pairwise_cons]
        refine ⟨fun c hc => ?_, hp⟩
        rcases List.mem_cons.mp hc with hc | hc
        · subst hc; exact hlt
        · exact Nat.lt_trans hlt (hp.1 c hc)
      · split
        · rename_i heq
          rw [List.pairwise_cons]
          exact ⟨fun c hc => by have := hp.1 c hc; simp only; omega, hp.2⟩
        · rename_i hge hne
          rw [List.pairwise_cons]
          refine ⟨fun c hc => ?_, ih hp.2⟩
          rcases Memory.mem_write hc with hc | hc
          · subst hc; simp only; omega
          · exact hp.1 c hc
  · rcases Memory.mem_write hc with hc | hc
    · subst hc; exact ha
    · exact h.2 c hc

/-- Writing a list of bytes keeps the canonical form where the last one is inside the depth. -/
theorem Memory.wf_writeFrom {depth : Nat} {m : Memory} (h : Memory.wf depth m) (a : Nat)
    (ds : List Byte) (ha : a + ds.length ≤ depth) : Memory.wf depth (Memory.writeFrom m a ds) := by
  induction ds generalizing m a with
  | nil => exact h
  | cons d ds ih =>
    simp only [List.length_cons] at ha
    exact ih (Memory.wf_write h d (by omega)) (a + 1) (by omega)

/-- What `writeFrom` leaves at each address. -/
theorem Memory.find_writeFrom (m : Memory) (a b : Nat) (ds : List Byte) :
    Memory.find (Memory.writeFrom m a ds) b =
      if a ≤ b ∧ b < a + ds.length then ds[b - a]? else Memory.find m b := by
  induction ds generalizing m a with
  | nil => rw [if_neg (by simp only [List.length_nil]; omega)]; rfl
  | cons d ds ih =>
    simp only [Memory.writeFrom, ih, Memory.find_write, List.length_cons]
    by_cases hab : a = b
    · subst hab
      rw [if_neg (by omega), if_pos rfl, if_pos (by omega)]
      simp
    · rw [if_neg hab]
      by_cases hin : a + 1 ≤ b ∧ b < a + 1 + ds.length
      · rw [if_pos hin, if_pos (by omega), show b - a = (b - (a + 1)) + 1 by omega]
        simp
      · rw [if_neg hin, if_neg (by omega)]

end Sys2Proof.Machine
end

