-- ==== Sys2Proof/Laws/State.lean ====
section
/-! SUPPORT. One lemma per field for every named update of the state: the changed fields hold the
new value, the others are as before. -/

namespace Sys2Proof.Machine

variable (s : State)

@[simp] theorem State.setf_phase (w : CellWrite) : (s.setf w).phase = s.phase := rfl
@[simp] theorem State.setf_err (w : CellWrite) : (s.setf w).err = s.err := rfl
@[simp] theorem State.setf_version (w : CellWrite) : (s.setf w).version = s.version := rfl
@[simp] theorem State.setf_level (w : CellWrite) : (s.setf w).level = s.level := rfl
@[simp] theorem State.setf_size (w : CellWrite) : (s.setf w).size = s.size := rfl
@[simp] theorem State.setf_mask (w : CellWrite) : (s.setf w).mask = s.mask := rfl
@[simp] theorem State.setf_plen (w : CellWrite) : (s.setf w).plen = s.plen := rfl
@[simp] theorem State.setf_mgdim (w : CellWrite) : (s.setf w).mgdim = s.mgdim := rfl
@[simp] theorem State.setf_fgdim (w : CellWrite) : (s.setf w).fgdim = s.fgdim := rfl
@[simp] theorem State.setf_pbuf (w : CellWrite) : (s.setf w).pbuf = s.pbuf := rfl
@[simp] theorem State.setf_cw (w : CellWrite) : (s.setf w).cw = s.cw := rfl
@[simp] theorem State.setf_mg (w : CellWrite) :
    (s.setf w).mg = s.mg.set w.x.toNat w.y.toNat w.bit := rfl
@[simp] theorem State.setf_fg (w : CellWrite) :
    (s.setf w).fg = s.fg.set w.x.toNat w.y.toNat true := rfl
@[simp] theorem State.setf_rdDark (w : CellWrite) : (s.setf w).rdDark = s.rdDark := rfl
@[simp] theorem State.setf_epoch (w : CellWrite) : (s.setf w).epoch = s.epoch := rfl
@[simp] theorem State.setf_anyReads (w : CellWrite) : (s.setf w).anyReads = s.anyReads := rfl
@[simp] theorem State.setf_script (w : CellWrite) : (s.setf w).script = s.script := rfl
@[simp] theorem State.setf_config (w : CellWrite) : (s.setf w).config = s.config := rfl

@[simp] theorem State.setfAll_phase (ws : List CellWrite) : (s.setfAll ws).phase = s.phase := rfl
@[simp] theorem State.setfAll_err (ws : List CellWrite) : (s.setfAll ws).err = s.err := rfl
@[simp] theorem State.setfAll_version (ws : List CellWrite) :
    (s.setfAll ws).version = s.version := rfl
@[simp] theorem State.setfAll_level (ws : List CellWrite) : (s.setfAll ws).level = s.level := rfl
@[simp] theorem State.setfAll_size (ws : List CellWrite) : (s.setfAll ws).size = s.size := rfl
@[simp] theorem State.setfAll_mask (ws : List CellWrite) : (s.setfAll ws).mask = s.mask := rfl
@[simp] theorem State.setfAll_plen (ws : List CellWrite) : (s.setfAll ws).plen = s.plen := rfl
@[simp] theorem State.setfAll_mgdim (ws : List CellWrite) : (s.setfAll ws).mgdim = s.mgdim := rfl
@[simp] theorem State.setfAll_fgdim (ws : List CellWrite) : (s.setfAll ws).fgdim = s.fgdim := rfl
@[simp] theorem State.setfAll_pbuf (ws : List CellWrite) : (s.setfAll ws).pbuf = s.pbuf := rfl
@[simp] theorem State.setfAll_cw (ws : List CellWrite) : (s.setfAll ws).cw = s.cw := rfl
@[simp] theorem State.setfAll_mg (ws : List CellWrite) :
    (s.setfAll ws).mg = ws.foldl (fun g w => g.set w.x.toNat w.y.toNat w.bit) s.mg := rfl
@[simp] theorem State.setfAll_fg (ws : List CellWrite) :
    (s.setfAll ws).fg = ws.foldl (fun g w => g.set w.x.toNat w.y.toNat true) s.fg := rfl
@[simp] theorem State.setfAll_rdDark (ws : List CellWrite) :
    (s.setfAll ws).rdDark = s.rdDark := rfl
@[simp] theorem State.setfAll_epoch (ws : List CellWrite) : (s.setfAll ws).epoch = s.epoch := rfl
@[simp] theorem State.setfAll_anyReads (ws : List CellWrite) :
    (s.setfAll ws).anyReads = s.anyReads := rfl
@[simp] theorem State.setfAll_script (ws : List CellWrite) :
    (s.setfAll ws).script = s.script := rfl
@[simp] theorem State.setfAll_config (ws : List CellWrite) :
    (s.setfAll ws).config = s.config := rfl

@[simp] theorem State.raise_phase (k : ErrorKind) : (s.raise k).phase = Phase.failed := rfl
@[simp] theorem State.raise_err (k : ErrorKind) : (s.raise k).err = k.code := rfl
@[simp] theorem State.raise_version (k : ErrorKind) : (s.raise k).version = s.version := rfl
@[simp] theorem State.raise_level (k : ErrorKind) : (s.raise k).level = s.level := rfl
@[simp] theorem State.raise_size (k : ErrorKind) : (s.raise k).size = s.size := rfl
@[simp] theorem State.raise_mask (k : ErrorKind) : (s.raise k).mask = s.mask := rfl
@[simp] theorem State.raise_plen (k : ErrorKind) : (s.raise k).plen = s.plen := rfl
@[simp] theorem State.raise_mgdim (k : ErrorKind) : (s.raise k).mgdim = s.mgdim := rfl
@[simp] theorem State.raise_fgdim (k : ErrorKind) : (s.raise k).fgdim = s.fgdim := rfl
@[simp] theorem State.raise_pbuf (k : ErrorKind) : (s.raise k).pbuf = s.pbuf := rfl
@[simp] theorem State.raise_cw (k : ErrorKind) : (s.raise k).cw = s.cw := rfl
@[simp] theorem State.raise_mg (k : ErrorKind) : (s.raise k).mg = s.mg := rfl
@[simp] theorem State.raise_fg (k : ErrorKind) : (s.raise k).fg = s.fg := rfl
@[simp] theorem State.raise_rdDark (k : ErrorKind) : (s.raise k).rdDark = s.rdDark := rfl
@[simp] theorem State.raise_epoch (k : ErrorKind) : (s.raise k).epoch = s.epoch := rfl
@[simp] theorem State.raise_anyReads (k : ErrorKind) : (s.raise k).anyReads = s.anyReads := rfl
@[simp] theorem State.raise_script (k : ErrorKind) : (s.raise k).script = s.script := rfl
@[simp] theorem State.raise_config (k : ErrorKind) : (s.raise k).config = s.config := rfl

@[simp] theorem State.clearRegisters_phase : s.clearRegisters.phase = Phase.idle := rfl
@[simp] theorem State.clearRegisters_err : s.clearRegisters.err = 0 := rfl
@[simp] theorem State.clearRegisters_version : s.clearRegisters.version = 0 := rfl
@[simp] theorem State.clearRegisters_level : s.clearRegisters.level = 0 := rfl
@[simp] theorem State.clearRegisters_size : s.clearRegisters.size = 0 := rfl
@[simp] theorem State.clearRegisters_mask : s.clearRegisters.mask = 0 := rfl
@[simp] theorem State.clearRegisters_plen : s.clearRegisters.plen = 0 := rfl
@[simp] theorem State.clearRegisters_mgdim : s.clearRegisters.mgdim = 0 := rfl
@[simp] theorem State.clearRegisters_fgdim : s.clearRegisters.fgdim = 0 := rfl
@[simp] theorem State.clearRegisters_pbuf : s.clearRegisters.pbuf = s.pbuf := rfl
@[simp] theorem State.clearRegisters_cw : s.clearRegisters.cw = s.cw := rfl
@[simp] theorem State.clearRegisters_mg : s.clearRegisters.mg = s.mg := rfl
@[simp] theorem State.clearRegisters_fg : s.clearRegisters.fg = s.fg := rfl
@[simp] theorem State.clearRegisters_rdDark : s.clearRegisters.rdDark = s.rdDark := rfl
@[simp] theorem State.clearRegisters_epoch : s.clearRegisters.epoch = s.epoch := rfl
@[simp] theorem State.clearRegisters_anyReads : s.clearRegisters.anyReads = s.anyReads := rfl
@[simp] theorem State.clearRegisters_script : s.clearRegisters.script = s.script := rfl
@[simp] theorem State.clearRegisters_config : s.clearRegisters.config = s.config := rfl

@[simp] theorem State.gridInit_phase : s.gridInit.phase = s.phase := rfl
@[simp] theorem State.gridInit_err : s.gridInit.err = s.err := rfl
@[simp] theorem State.gridInit_version : s.gridInit.version = s.version := rfl
@[simp] theorem State.gridInit_level : s.gridInit.level = s.level := rfl
@[simp] theorem State.gridInit_size : s.gridInit.size = s.size := rfl
@[simp] theorem State.gridInit_mask : s.gridInit.mask = s.mask := rfl
@[simp] theorem State.gridInit_plen : s.gridInit.plen = s.plen := rfl
@[simp] theorem State.gridInit_mgdim : s.gridInit.mgdim = s.size := rfl
@[simp] theorem State.gridInit_fgdim : s.gridInit.fgdim = s.size := rfl
@[simp] theorem State.gridInit_pbuf : s.gridInit.pbuf = s.pbuf := rfl
@[simp] theorem State.gridInit_cw : s.gridInit.cw = s.cw := rfl
@[simp] theorem State.gridInit_mg : s.gridInit.mg = Grid.cleared := rfl
@[simp] theorem State.gridInit_fg : s.gridInit.fg = Grid.cleared := rfl
@[simp] theorem State.gridInit_rdDark : s.gridInit.rdDark = s.rdDark := rfl
@[simp] theorem State.gridInit_epoch : s.gridInit.epoch = s.epoch := rfl
@[simp] theorem State.gridInit_anyReads : s.gridInit.anyReads = s.anyReads := rfl
@[simp] theorem State.gridInit_script : s.gridInit.script = s.script := rfl
@[simp] theorem State.gridInit_config : s.gridInit.config = s.config := rfl

@[simp] theorem State.sizeSymbol_phase (v e : Nat) : (s.sizeSymbol v e).phase = s.phase := rfl
@[simp] theorem State.sizeSymbol_err (v e : Nat) : (s.sizeSymbol v e).err = s.err := rfl
@[simp] theorem State.sizeSymbol_version (v e : Nat) :
    (s.sizeSymbol v e).version = BitVec.ofNat 4 v := rfl
@[simp] theorem State.sizeSymbol_level (v e : Nat) :
    (s.sizeSymbol v e).level = BitVec.ofNat 2 e := rfl
@[simp] theorem State.sizeSymbol_size (v e : Nat) :
    (s.sizeSymbol v e).size = BitVec.ofNat 6 (sizeOfVersion v) := rfl
@[simp] theorem State.sizeSymbol_mask (v e : Nat) : (s.sizeSymbol v e).mask = 0 := rfl
@[simp] theorem State.sizeSymbol_plen (v e : Nat) : (s.sizeSymbol v e).plen = s.plen := rfl
@[simp] theorem State.sizeSymbol_mgdim (v e : Nat) : (s.sizeSymbol v e).mgdim = s.mgdim := rfl
@[simp] theorem State.sizeSymbol_fgdim (v e : Nat) : (s.sizeSymbol v e).fgdim = s.fgdim := rfl
@[simp] theorem State.sizeSymbol_pbuf (v e : Nat) : (s.sizeSymbol v e).pbuf = s.pbuf := rfl
@[simp] theorem State.sizeSymbol_cw (v e : Nat) : (s.sizeSymbol v e).cw = s.cw := rfl
@[simp] theorem State.sizeSymbol_mg (v e : Nat) : (s.sizeSymbol v e).mg = s.mg := rfl
@[simp] theorem State.sizeSymbol_fg (v e : Nat) : (s.sizeSymbol v e).fg = s.fg := rfl
@[simp] theorem State.sizeSymbol_rdDark (v e : Nat) : (s.sizeSymbol v e).rdDark = s.rdDark := rfl
@[simp] theorem State.sizeSymbol_epoch (v e : Nat) : (s.sizeSymbol v e).epoch = s.epoch := rfl
@[simp] theorem State.sizeSymbol_anyReads (v e : Nat) :
    (s.sizeSymbol v e).anyReads = s.anyReads := rfl
@[simp] theorem State.sizeSymbol_script (v e : Nat) : (s.sizeSymbol v e).script = s.script := rfl
@[simp] theorem State.sizeSymbol_config (v e : Nat) : (s.sizeSymbol v e).config = s.config := rfl

@[simp] theorem State.setf_pbufAt (w : CellWrite) (i : Nat) :
    (s.setf w).pbufAt i = s.pbufAt i := rfl
@[simp] theorem State.setf_cwAt (w : CellWrite) (i : Nat) :
    (s.setf w).cwAt i = s.cwAt i := rfl

@[simp] theorem State.setfAll_pbufAt (ws : List CellWrite) (i : Nat) :
    (s.setfAll ws).pbufAt i = s.pbufAt i := rfl
@[simp] theorem State.setfAll_cwAt (ws : List CellWrite) (i : Nat) :
    (s.setfAll ws).cwAt i = s.cwAt i := rfl

@[simp] theorem State.raise_pbufAt (k : ErrorKind) (i : Nat) :
    (s.raise k).pbufAt i = s.pbufAt i := rfl
@[simp] theorem State.raise_cwAt (k : ErrorKind) (i : Nat) :
    (s.raise k).cwAt i = s.cwAt i := rfl
@[simp] theorem State.raise_mgAt (k : ErrorKind) (x y : Nat) :
    (s.raise k).mgAt x y = s.mgAt x y := rfl
@[simp] theorem State.raise_fgAt (k : ErrorKind) (x y : Nat) :
    (s.raise k).fgAt x y = s.fgAt x y := rfl

@[simp] theorem State.clearRegisters_pbufAt (i : Nat) :
    s.clearRegisters.pbufAt i = s.pbufAt i := rfl
@[simp] theorem State.clearRegisters_cwAt (i : Nat) :
    s.clearRegisters.cwAt i = s.cwAt i := rfl
@[simp] theorem State.clearRegisters_mgAt (x y : Nat) :
    s.clearRegisters.mgAt x y = s.mgAt x y := rfl
@[simp] theorem State.clearRegisters_fgAt (x y : Nat) :
    s.clearRegisters.fgAt x y = s.fgAt x y := rfl

@[simp] theorem State.gridInit_pbufAt (i : Nat) :
    s.gridInit.pbufAt i = s.pbufAt i := rfl
@[simp] theorem State.gridInit_cwAt (i : Nat) :
    s.gridInit.cwAt i = s.cwAt i := rfl

@[simp] theorem State.sizeSymbol_pbufAt (v e : Nat) (i : Nat) :
    (s.sizeSymbol v e).pbufAt i = s.pbufAt i := rfl
@[simp] theorem State.sizeSymbol_cwAt (v e : Nat) (i : Nat) :
    (s.sizeSymbol v e).cwAt i = s.cwAt i := rfl
@[simp] theorem State.sizeSymbol_mgAt (v e : Nat) (x y : Nat) :
    (s.sizeSymbol v e).mgAt x y = s.mgAt x y := rfl
@[simp] theorem State.sizeSymbol_fgAt (v e : Nat) (x y : Nat) :
    (s.sizeSymbol v e).fgAt x y = s.fgAt x y := rfl

end Sys2Proof.Machine
end

