-- ==== Sys2Proof/Laws/Ops.lean ====
section
/-! SUPPORT. What the shared operations can do: the function-cell writes, `drawThen`, the bounds of
the table reads, and what the fetch answers. -/

namespace Sys2Proof.Machine

/-- The bit the last write of the list to cell `(x, y)` leaves there. -/
def lastWrite : List CellWrite → Nat → Nat → Option Bool
  | [], _, _ => none
  | w :: ws, x, y => (lastWrite ws x y).or (if w.x = x ∧ w.y = y then some w.bit else none)

@[simp] theorem lastWrite_nil (x y : Nat) : lastWrite [] x y = none := rfl

theorem lastWrite_append (ws ws' : List CellWrite) (x y : Nat) :
    lastWrite (ws ++ ws') x y = (lastWrite ws' x y).or (lastWrite ws x y) := by
  induction ws with
  | nil => simp
  | cons w ws ih => simp [lastWrite, ih, Option.or_assoc]

theorem lastWrite_eq_none {ws : List CellWrite} {x y : Nat} :
    lastWrite ws x y = none ↔ ∀ w ∈ ws, ¬(w.x = x ∧ w.y = y) := by
  induction ws with
  | nil => simp
  | cons w ws ih => simp [lastWrite, ih, and_comm]

/-- A cell that every write to it gives the same bit, and that some write does write. -/
theorem lastWrite_eq_of_all {ws : List CellWrite} {x y : Nat} {b : Bool}
    (hall : ∀ w ∈ ws, w.x = x → w.y = y → w.bit = b) (hex : ∃ w ∈ ws, w.x = x ∧ w.y = y) :
    lastWrite ws x y = some b := by
  induction ws with
  | nil => simp at hex
  | cons w ws ih =>
    simp only [lastWrite]
    cases hl : lastWrite ws x y with
    | some b' =>
      by_cases hex' : ∃ w ∈ ws, w.x = x ∧ w.y = y
      · rw [ih (fun w hw => hall w (List.mem_cons_of_mem _ hw)) hex'] at hl
        cases hl; rfl
      · rw [lastWrite_eq_none.mpr (fun w hw h => hex' ⟨w, hw, h⟩)] at hl
        cases hl
    | none =>
      rw [lastWrite_eq_none] at hl
      obtain ⟨w', hw', hx, hy⟩ := hex
      rcases List.mem_cons.mp hw' with rfl | hw'
      · rw [if_pos ⟨hx, hy⟩, hall w' (List.mem_cons_self) hx hy]; rfl
      · exact absurd ⟨hx, hy⟩ (hl w' hw')

theorem setfAll_cons (s : State) (w : CellWrite) (ws : List CellWrite) :
    s.setfAll (w :: ws) = (s.setf w).setfAll ws := rfl

theorem setfAll_append (s : State) (ws ws' : List CellWrite) :
    s.setfAll (ws ++ ws') = (s.setfAll ws).setfAll ws' := by
  simp [State.setfAll, List.foldl_append]

theorem foldl_set_read {n : Nat} (bit : CellWrite → Bool) (free : Nat → Bool)
    (ws : List CellWrite) (g : Grid) (hws : ws.all (CellWrite.inWindow n) = true) {x y : Nat}
    (hx : x < 57) :
    (ws.foldl (fun g w => g.set w.x.toNat w.y.toNat (bit w)) g).read free x y =
      (lastWrite (ws.map fun w => ⟨w.x, w.y, bit w⟩) x y).getD (g.read free x y) := by
  induction ws generalizing g with
  | nil => rfl
  | cons w ws ih =>
    simp only [List.all_cons, Bool.and_eq_true] at hws
    obtain ⟨hw, hws⟩ := hws
    rw [CellWrite.inWindow_iff] at hw
    simp only [List.foldl_cons, List.map_cons, lastWrite]
    rw [ih _ hws, Grid.read_set g free _ (by omega) (by omega) hx]
    cases lastWrite (ws.map fun w => ⟨w.x, w.y, bit w⟩) x y with
    | some b => rfl
    | none =>
      simp only [Option.none_or, Prod.mk.injEq, Option.getD_none]
      have e : (w.x.toNat = x ∧ w.y.toNat = y) ↔ (w.x = (x : Int) ∧ w.y = (y : Int)) := by omega
      simp only [e]
      split <;> rfl

/-- `MG` after the writes: the last write to the cell, else the old bit. -/
theorem State.setfAll_mgAt (s : State) {n : Nat} {ws : List CellWrite}
    (hws : ws.all (CellWrite.inWindow n) = true) {x y : Nat} (hx : x < 57) :
    (s.setfAll ws).mgAt x y = (lastWrite ws x y).getD (s.mgAt x y) := by
  have h := foldl_set_read (fun w => w.bit) (Config.freeMg s.epoch) ws s.mg hws (y := y) hx
  have e : (ws.map fun w => (⟨w.x, w.y, w.bit⟩ : CellWrite)) = ws := List.map_id' ws
  rw [e] at h
  exact h

theorem lastWrite_map_true (ws : List CellWrite) (x y : Nat) :
    lastWrite (ws.map fun w => ⟨w.x, w.y, true⟩) x y =
      if ∃ w ∈ ws, w.x = x ∧ w.y = y then some true else none := by
  split
  · rename_i h
    obtain ⟨w, hw, hxy⟩ := h
    refine lastWrite_eq_of_all ?_ ⟨_, List.mem_map_of_mem hw, hxy⟩
    intro w' hw' _ _
    obtain ⟨_, _, rfl⟩ := List.mem_map.mp hw'
    rfl
  · rename_i h
    rw [lastWrite_eq_none]
    intro w' hw' hxy
    obtain ⟨w, hw, rfl⟩ := List.mem_map.mp hw'
    exact h ⟨w, hw, hxy⟩

/-- `FG` after the writes: 1 where a write falls, else the old bit. -/
theorem State.setfAll_fgAt (s : State) {n : Nat} {ws : List CellWrite}
    (hws : ws.all (CellWrite.inWindow n) = true) {x y : Nat} (hx : x < 57) :
    (s.setfAll ws).fgAt x y = (decide (∃ w ∈ ws, w.x = x ∧ w.y = y) || s.fgAt x y) := by
  have h := foldl_set_read (fun _ => true) (Config.freeFg s.epoch) ws s.fg hws (y := y) hx
  rw [lastWrite_map_true] at h
  have h' : (s.setfAll ws).fgAt x y =
      (if ∃ w ∈ ws, w.x = x ∧ w.y = y then some true else none).getD (s.fgAt x y) := h
  rw [h']
  by_cases hex : ∃ w ∈ ws, w.x = (x : Int) ∧ w.y = (y : Int) <;> simp [hex]

theorem foldl_set_full (bit : CellWrite → Bool) (ws : List CellWrite) {g : Grid} (h : g.full) :
    (ws.foldl (fun g w => g.set w.x.toNat w.y.toNat (bit w)) g).full := by
  induction ws generalizing g with
  | nil => exact h
  | cons w ws ih => exact ih (Grid.full_set h _ _ _)

theorem foldl_set_wf (bit : CellWrite → Bool) (ws : List CellWrite) {g : Grid} (h : g.wf) :
    (ws.foldl (fun g w => g.set w.x.toNat w.y.toNat (bit w)) g).wf := by
  induction ws generalizing g with
  | nil => exact h
  | cons w ws ih => exact ih (Grid.wf_set h _ _ _)

/-- Everything `drawThen` can do. -/
theorem State.drawThen_eq_next {s t : State} {ws : List CellWrite} {p : Nibble} :
    s.drawThen ws p = .next t ↔
      ws.all (CellWrite.inWindow s.size.toNat) = true ∧ t = { s.setfAll ws with phase := p } := by
  unfold State.drawThen
  split
  · rename_i h; simp only [h, true_and, Host.Outcome.next.injEq]; exact eq_comm
  · rename_i h; simp [h]

theorem capAt?_eq_some {c : Config} {v e cap : Nat} (h : capAt? c v e = some cap) :
    (1 ≤ v ∧ v ≤ 10) ∧ e < 4 ∧ cap ≤ 271 := by
  unfold capAt? at h
  split at h
  · rename_i hb
    injection h with h
    have := (c.cap[v - 1][e] : Fin 272).isLt
    exact ⟨hb.1, hb.2, by omega⟩
  · cases h

theorem capAt?_isSome {c : Config} {v e : Nat} (hv : 1 ≤ v ∧ v ≤ 10) (he : e < 4) :
    ∃ cap, capAt? c v e = some cap := by
  unfold capAt?
  exact ⟨_, dif_pos ⟨hv, he⟩⟩

theorem alignAt?_isSome {c : Config} {v : Nat} (hv : 1 ≤ v ∧ v ≤ 10) :
    ∃ l, alignAt? c v = some l := by
  unfold alignAt?
  exact ⟨_, dif_pos hv⟩

theorem alignAt?_eq_none {c : Config} {v : Nat} : alignAt? c v = none ↔ ¬(1 ≤ v ∧ v ≤ 10) := by
  unfold alignAt?
  split <;> simp_all

/-- What a legal configuration gives the alignment patterns of every version. -/
theorem configLegal_align {c : Config} (h : configLegal c = true) {v : Nat} (hv : 1 ≤ v ∧ v ≤ 10)
    {l : List Nat} (hl : alignAt? c v = some l) {p : Nat × Nat}
    (hp : p ∈ drawnCentres (sizeOfVersion v) l) :
    2 ≤ p.1 ∧ p.1 + 3 ≤ sizeOfVersion v ∧ 2 ≤ p.2 ∧ p.2 + 3 ≤ sizeOfVersion v := by
  unfold configLegal at h
  simp only [Bool.and_eq_true, List.all_eq_true] at h
  have hrow := h.2 v (by simp [List.mem_range']; exact ⟨v - 1, by omega, by omega⟩)
  unfold alignRowLegal at hrow
  rw [hl] at hrow
  simp only [Bool.and_eq_true, List.all_eq_true] at hrow
  simpa [centreFits, and_assoc] using hrow.2 p hp

/-- A legal configuration lists 0 to 3 centre coordinates for every version (R31). -/
theorem configLegal_align_length {c : Config} (h : configLegal c = true) {v : Nat}
    (hv : 1 ≤ v ∧ v ≤ 10) {l : List Nat} (hl : alignAt? c v = some l) : l.length ≤ 3 := by
  unfold configLegal at h
  simp only [Bool.and_eq_true, List.all_eq_true] at h
  have hrow := h.2 v (by simp [List.mem_range']; exact ⟨v - 1, by omega, by omega⟩)
  unfold alignRowLegal at hrow
  rw [hl] at hrow
  simp only [Bool.and_eq_true, decide_eq_true_eq] at hrow
  exact hrow.1

/-- The side of a legal symbol. -/
theorem sizeOfVersion_bounds {v : Nat} (hv : 1 ≤ v ∧ v ≤ 10) :
    21 ≤ sizeOfVersion v ∧ sizeOfVersion v ≤ 57 ∧ sizeOfVersion v % 4 = 1 := by
  unfold sizeOfVersion; omega

/-- What the fetch answers, by the head of the script. -/
@[simp] theorem State.fetch_nil {s : State} (h : s.script = []) :
    s.fetch = (.formatS s.phase, s) := by
  unfold State.fetch; rw [h]

@[simp] theorem State.fetch_seq {s : State} {rest : List Line} (h : s.script = .seq :: rest) :
    s.fetch = (.formatS s.phase, { s with script := rest }) := by
  unfold State.fetch; rw [h]

@[simp] theorem State.fetch_host {s : State} {p : HostPorts} {rest : List Line}
    (h : s.script = .host p :: rest) : s.fetch = (.formatH p, { s with script := rest }) := by
  unfold State.fetch; rw [h]

@[simp] theorem State.fetch_read {s : State} {x y : BitVec 6} {rest : List Line}
    (h : s.script = .read x y :: rest) :
    s.fetch = (.readPort x y, { s with script := rest }) := by
  unfold State.fetch; rw [h]

/-- The fetch takes one line and changes nothing else. -/
theorem State.fetch_state (s : State) : s.fetch.2 = { s with script := s.script.tail } := by
  unfold State.fetch
  split <;> rename_i h <;> rw [h] <;> simp
  cases s; simp_all

end Sys2Proof.Machine
end

