-- ==== Sys2Proof/Laws/Create.lean ====
section
/-! SUPPORT. What the sizer answers and everything `CREATE` can do. -/

namespace Sys2Proof.Machine

theorem mem_sizerOrder {p : Nat × Nat} : p ∈ sizerOrder ↔ (1 ≤ p.1 ∧ p.1 ≤ 10) ∧ p.2 < 4 := by
  obtain ⟨v, e⟩ := p
  simp only [sizerOrder, List.mem_flatMap, List.mem_map, Prod.mk.injEq, List.mem_range'_1]
  constructor
  · rintro ⟨v', hv, e', he, rfl, rfl⟩
    simp at he
    omega
  · rintro ⟨hv, he⟩
    refine ⟨v, by omega, e, ?_, rfl, rfl⟩
    simp
    omega

/-- The search order: a smaller version first, and in one version a stronger level first (R85). -/
theorem sizerOrder_pairwise :
    sizerOrder.Pairwise fun p q => p.1 < q.1 ∨ p.1 = q.1 ∧ q.2 < p.2 := by decide

theorem fits_iff {c : Config} {l : Nat} {p : Nat × Nat} :
    fits c l p = true ↔ ∃ cap, capAt? c p.1 p.2 = some cap ∧ l + 3 ≤ cap := by
  unfold fits
  cases h : capAt? c p.1 p.2 <;> simp [Config.overhead]

/-- No pair fits. -/
theorem sizer_eq_none {c : Config} {l : Nat} :
    sizer c l = none ↔ ∀ v e cap, capAt? c v e = some cap → cap < l + 3 := by
  simp only [sizer, List.find?_eq_none, fits_iff, not_exists, not_and, Nat.not_le]
  constructor
  · intro h v e cap hc
    have hb := capAt?_eq_some hc
    exact h (v, e) (mem_sizerOrder.mpr ⟨hb.1, hb.2.1⟩) cap hc
  · intro h p _ cap hc
    exact h _ _ cap hc

/-- The pair found fits, and none before it in the search order does (R85, R86 item 1). -/
theorem sizer_eq_some {c : Config} {l v e : Nat} :
    sizer c l = some (v, e) ↔
      (∃ cap, capAt? c v e = some cap ∧ l + 3 ≤ cap) ∧
      ∀ v' e' cap, capAt? c v' e' = some cap → (v' < v ∨ v' = v ∧ e < e') → cap < l + 3 := by
  constructor
  · intro h
    rw [sizer, List.find?_eq_some_iff_append] at h
    obtain ⟨hfit, as, bs, hl, has⟩ := h
    refine ⟨fits_iff.mp hfit, ?_⟩
    intro v' e' cap hc hlt
    have hb := capAt?_eq_some hc
    have hm : (v', e') ∈ sizerOrder := mem_sizerOrder.mpr ⟨hb.1, hb.2.1⟩
    have hpw := sizerOrder_pairwise
    rw [hl] at hm hpw
    rw [List.pairwise_append] at hpw
    rcases List.mem_append.mp hm with hm | hm
    · by_contra hcon
      have := has _ hm
      simp only [Bool.not_eq_true', ← Bool.not_eq_true, fits_iff] at this
      exact this ⟨cap, hc, by omega⟩
    · rcases List.mem_cons.mp hm with hm | hm
      · cases hm; omega
      · have := (List.pairwise_cons.mp hpw.2.1).1 _ hm
        simp only at this
        omega
  · rintro ⟨⟨cap, hc, hcap⟩, hmin⟩
    cases hs : sizer c l with
    | none => exact absurd (sizer_eq_none.mp hs v e cap hc) (by omega)
    | some p =>
      obtain ⟨v', e'⟩ := p
      rw [sizer, List.find?_eq_some_iff_append] at hs
      obtain ⟨hfit, as, bs, hl, has⟩ := hs
      have hb := capAt?_eq_some hc
      have hm : (v, e) ∈ sizerOrder := mem_sizerOrder.mpr ⟨hb.1, hb.2.1⟩
      have hpw := sizerOrder_pairwise
      rw [hl] at hm hpw
      rw [List.pairwise_append] at hpw
      rcases List.mem_append.mp hm with hm | hm
      · have := has _ hm
        simp only [Bool.not_eq_true', ← Bool.not_eq_true, fits_iff] at this
        exact absurd ⟨cap, hc, hcap⟩ this
      · rcases List.mem_cons.mp hm with hm | hm
        · rw [hm]
        · have hlt := (List.pairwise_cons.mp hpw.2.1).1 _ hm
          obtain ⟨cap', hc', hcap'⟩ := fits_iff.mp hfit
          exact absurd (hmin v' e' cap' hc' hlt) (by omega)

/-- The state a successful `CREATE` leaves (R83, R87, R88). -/
def State.created (s : State) (v e : Nat) : State :=
  { (s.sizeSymbol v e).gridInit with phase := Phase.uninit }

/-- Everything `CREATE` can do. -/
theorem execCreate_cases {s t : State} (h : execCreate s = .next t) :
    (s.plen = 0 ∧ t = s.raise .input) ∨
    (s.plen ≠ 0 ∧ sizer s.config s.plen.toNat = none ∧ t = s.raise .capacity) ∨
    (s.plen ≠ 0 ∧ ∃ v e, sizer s.config s.plen.toNat = some (v, e) ∧ t = s.created v e) := by
  unfold execCreate at h
  split at h
  · rename_i h0; cases h; exact .inl ⟨h0, rfl⟩
  · rename_i h0
    split at h
    · rename_i hs; cases h; exact .inr (.inl ⟨h0, hs, rfl⟩)
    · rename_i v e hs; cases h; exact .inr (.inr ⟨h0, v, e, hs, rfl⟩)

/-- `CREATE` never stops. -/
theorem execCreate_completes (s : State) : ∃ t, execCreate s = .next t := by
  unfold execCreate
  split
  · exact ⟨_, rfl⟩
  · split <;> exact ⟨_, rfl⟩

end Sys2Proof.Machine
end

