-- ==== Sys2Proof/Laws/Decode.lean ====
section
/-! SUPPORT. Laws of the decoders: what they decode is well formed, and a decoded format-S
instruction tells the phase it came from. -/

namespace Sys2Proof

/-- Everything format H decodes to (R56). -/
theorem decodeH_cases (p : HostPorts) :
    decodeH p = .reset ∨ decodeH p = .clear ∨ decodeH p = .start p.plen.toNat ∨
    decodeH p = .pwrite p.pwAddr.toNat p.pwData ∨ decodeH p = .noph := by
  unfold decodeH
  repeat' split
  all_goals simp

/-- Everything format S decodes to, with the phase it is decoded from (R58, R70). -/
theorem decodeS_cases (phase : Nibble) :
    (phase = Phase.idle ∧ decodeS phase = .waitIdle) ∨
    (phase = Phase.started ∧ decodeS phase = .create) ∨
    (phase = Phase.uninit ∧ decodeS phase = .pattern) ∨
    (phase = Phase.patternsPlaced ∧ decodeS phase = .encode) ∨
    (phase = Phase.dataEncoded ∧ decodeS phase = .place) ∨
    (phase = Phase.dataPlaced ∧ decodeS phase = .mask) ∨
    (phase = Phase.masked ∧ decodeS phase = .format) ∨
    (phase = Phase.formatEmbedded ∧ decodeS phase = .waitFormatEmbedded) ∨
    (phase = Phase.failed ∧ decodeS phase = .waitFailed) ∨
    (9 ≤ phase.toNat ∧ (decodeS phase).mnemonic = "RESERVED") := by
  revert phase; decide

/-- Whatever is decoded is well formed: a port holds no operand wider than itself. -/
theorem decode_wellFormed (f : Fetched) : (decode f).wellFormed = true := by
  cases f with
  | formatH p =>
    have h1 := p.plen.isLt
    have h2 := p.pwAddr.isLt
    rcases decodeH_cases p with h | h | h | h | h <;>
      simp only [decode, h, Instr.wellFormed, decide_eq_true_eq] <;> omega
  | formatS phase => revert phase; decide
  | readPort x y =>
    have h1 := x.isLt
    have h2 := y.isLt
    simp only [decode, Instr.wellFormed, Bool.and_eq_true, decide_eq_true_eq]
    omega

end Sys2Proof
end

