-- ==== Sys2Proof/Laws/Encode.lean ====
section
/-! SUPPORT. Lengths and bits of the stream, the packing into bytes, and everything `ENCODE` can
do. -/

namespace Sys2Proof.Machine

@[simp] theorem length_msbFirst (w b : Nat) : (msbFirst w b).length = w := by simp [msbFirst]

@[simp] theorem length_byteBits (b : Byte) : (byteBits b).length = 8 := by simp [byteBits]

theorem getElem?_msbFirst {w b i : Nat} (h : i < w) :
    (msbFirst w b)[i]? = some (b.testBit (w - 1 - i)) := by
  simp [msbFirst, h]

theorem length_flatMap_byteBits (l : List Byte) : (l.flatMap byteBits).length = 8 * l.length := by
  induction l with
  | nil => rfl
  | cons b l ih => simp [ih]; omega

@[simp] theorem length_streamHead (p : List Byte) : (streamHead p).length = 12 + 8 * p.length := by
  simp only [streamHead, List.length_append, length_msbFirst, length_flatMap_byteBits]

@[simp] theorem length_padBytes (k : Nat) : (padBytes k).length = 8 * k := by
  unfold padBytes
  induction k with
  | zero => rfl
  | succ k ih => rw [List.range_succ, List.flatMap_append, List.length_append, ih]; simp; omega

/-- Under the sizer's postcondition the stream is header, payload, four zero bits and whole pad
bytes (R63, R107 to R109). -/
theorem bitstream_of_fits {p : List Byte} {c : Nat} (h : p.length + 3 ≤ c) :
    bitstream p c = streamHead p ++ List.replicate 4 false ++ padBytes (c - p.length - 2) := by
  unfold bitstream terminator bitPadding
  have h1 : min 4 (8 * c - (12 + 8 * p.length)) = 4 := by omega
  have h2 : (8 - (12 + 8 * p.length + 4) % 8) % 8 = 0 := by omega
  have h3 : (8 * c - (12 + 8 * p.length + 4 + 0) + 7) / 8 = c - p.length - 2 := by omega
  simp only [List.length_append, List.length_replicate, length_streamHead, h1, h2, h3,
    List.replicate_zero, List.append_nil]

/-- Under the sizer's postcondition the stream has exactly the capacity's bits (R63, R103). -/
theorem length_bitstream_of_fits {p : List Byte} {c : Nat} (h : p.length + 3 ≤ c) :
    (bitstream p c).length = 8 * c := by
  rw [bitstream_of_fits h]; simp; omega

@[simp] theorem length_packBytes (bits : List Bool) (c : Nat) : (packBytes bits c).length = c := by
  induction c generalizing bits with
  | zero => rfl
  | succ c ih => simp [packBytes, ih]

/-- Byte `j` of the packing is made of stream bits `8j` to `8j + 7` (R64, R110). -/
theorem getElem?_packBytes (bits : List Bool) {c j : Nat} (h : j < c) :
    (packBytes bits c)[j]? = some (byteOfBits ((bits.drop (8 * j)).take 8)) := by
  induction c generalizing bits j with
  | zero => omega
  | succ c ih =>
    cases j with
    | zero => simp [packBytes]
    | succ j =>
      simp only [packBytes, List.getElem?_cons_succ]
      rw [ih _ (by omega), List.drop_drop, show 8 + 8 * j = 8 * (j + 1) by omega]

/-- The bits of a byte make the byte (R64, R65). -/
theorem byteOfBits_byteBits : ∀ b : Byte, byteOfBits (byteBits b) = b := by decide

/-- The second half of one byte followed by the first half of the next (R110). -/
theorem byteOfBits_halves : ∀ a b : Byte,
    byteOfBits ((byteBits a).drop 4 ++ (byteBits b).take 4) =
      BitVec.ofNat 8 (a.toNat % 16 * 16 + b.toNat / 16) := by
  have ha : ∀ a : Byte, (byteBits a).drop 4 = msbFirst 4 (a.toNat % 16) := by decide
  have hb : ∀ b : Byte, (byteBits b).take 4 = msbFirst 4 (b.toNat / 16) := by decide
  have hab : ∀ i < 16, ∀ j < 16,
      byteOfBits (msbFirst 4 i ++ msbFirst 4 j) = BitVec.ofNat 8 (i * 16 + j) := by decide
  intro a b
  rw [ha, hb]
  exact hab _ (Nat.mod_lt _ (by decide)) _ (by have := b.isLt; omega)

@[simp] theorem State.length_payload (s : State) : s.payload.length = s.plen.toNat := by
  simp [State.payload]

theorem State.getElem?_payload (s : State) {i : Nat} (h : i < s.plen.toNat) :
    s.payload[i]? = some (s.pbufAt i) := by
  simp [State.payload, h]

/-- Everything `ENCODE` can do. -/
theorem execEncode_eq_next {s t : State} :
    execEncode s = .next t ↔
      ∃ c, capAt? s.config s.version.toNat s.level.toNat = some c ∧ s.plen.toNat ≤ 268 ∧
        t = { s with
          cw := Memory.writeFrom s.cw 0 (packBytes (bitstream s.payload c) c)
          phase := Phase.dataEncoded } := by
  unfold execEncode
  cases hc : capAt? s.config s.version.toNat s.level.toNat with
  | none => simp
  | some c =>
    simp only [Config.pbufDepth, Option.some.injEq, exists_eq_left', gt_iff_lt]
    split
    · rename_i h; simp; omega
    · rename_i h
      simp only [Host.Outcome.next.injEq, Nat.le_of_not_lt h, true_and]
      exact eq_comm

end Sys2Proof.Machine
end

