-- ==== Sys2Proof/Laws/Format.lean ====
section
/-! SUPPORT. The writes of `FORMAT` lie in the window, and everything `FORMAT` can do. -/

namespace Sys2Proof.Machine

/-- The cells of `FORMAT`, for each of the two values of `FMT_COPY2` (R131 to R135). -/
theorem formatWrites_inWindow {n : Nat} (hlo : 17 ≤ n) (hhi : n ≤ 57) (f : FormatWord)
    (c2 : FmtCopy2) : (formatWrites n f c2).all (CellWrite.inWindow n) = true := by
  rw [List.all_eq_true]
  intro w hw
  rw [CellWrite.inWindow_iff]
  cases c2 <;>
    simp only [formatWrites, formatCopy1, formatCopy2, darkModule, List.mem_append, List.mem_map,
      List.mem_range, List.mem_range'_1, List.mem_cons, List.not_mem_nil, or_false] at hw <;>
    rcases hw with (((⟨i, hi, rfl⟩ | rfl | rfl | rfl) | ⟨i, hi, rfl⟩) | hw) | rfl <;>
    first
      | (rcases hw with ⟨i, hi, rfl⟩ | ⟨i, hi, rfl⟩ <;> simp only <;> omega)
      | (obtain ⟨i, hi, rfl⟩ := hw; simp only; omega)
      | (simp only; omega)

/-- Everything `FORMAT` can do. -/
theorem execFormat_eq_next {s t : State} :
    execFormat s = .next t ↔
      (formatWrites s.size.toNat (fmtAt s.config s.level s.mask) s.config.fmtCopy2).all
        (CellWrite.inWindow s.size.toNat) = true ∧
      t = { s.setfAll (formatWrites s.size.toNat (fmtAt s.config s.level s.mask)
              s.config.fmtCopy2) with phase := Phase.formatEmbedded } :=
  State.drawThen_eq_next

end Sys2Proof.Machine
end

