-- ==== Sys2Proof/Laws/Mask.lean ====
section
/-! SUPPORT. What `applymask` does to each cell, that the trial of a candidate is undone, how the
choice goes on, and everything `MASK` can do. -/

namespace Sys2Proof.Machine

/-- One toggle, seen at one cell (R120). -/
theorem toggleCell_read (fg : Nat → Nat → Bool) (free : Nat → Bool) (m : Nat) (g : Grid)
    {c : Nat × Nat} (hc : c.1 < 57 ∧ c.2 < 57) {x y : Nat} (hx : x < 57) :
    (toggleCell fg free m g c).read free x y =
      (g.read free x y ^^ (decide (c = (x, y)) && (!fg x y && maskPred m x y))) := by
  unfold toggleCell
  split
  · rename_i h
    rw [Grid.read_set _ _ _ hc.1 hc.2 hx]
    by_cases he : c = (x, y)
    · subst he; simp only at h; simp [h]
    · simp [he]
  · rename_i h
    by_cases he : c = (x, y)
    · subst he; simp only at h; simp [h]
    · simp [he]

/-- `applymask(m)`, seen at one cell: inside the window a free cell whose predicate holds is
toggled, every other cell is as before (R120). -/
theorem applyMask_read (fg : Nat → Nat → Bool) (free : Nat → Bool) {n : Nat} (hn : n ≤ 57)
    (m : Nat) (g : Grid) {x y : Nat} (hx : x < 57) :
    (applyMask fg free n m g).read free x y =
      (g.read free x y ^^ (decide (x < n ∧ y < n) && (!fg x y && maskPred m x y))) := by
  have key : ∀ (l : List (Nat × Nat)), l.Nodup → (∀ c ∈ l, c.1 < 57 ∧ c.2 < 57) → ∀ g : Grid,
      (l.foldl (toggleCell fg free m) g).read free x y =
        (g.read free x y ^^ (decide ((x, y) ∈ l) && (!fg x y && maskPred m x y))) := by
    intro l
    induction l with
    | nil => intros; simp
    | cons c l ih =>
      intro hnd hb g
      rw [List.nodup_cons] at hnd
      rw [List.foldl_cons, ih hnd.2 (fun d hd => hb d (List.mem_cons_of_mem _ hd)),
        toggleCell_read fg free m g (hb c List.mem_cons_self) hx]
      by_cases he : c = (x, y)
      · subst he; simp [hnd.1]
      · simp [he, Ne.symm he]
  unfold applyMask
  rw [key _ (nodup_windowCells n) (fun c hc => by have := mem_windowCells.mp hc; omega)]
  simp [mem_windowCells]

theorem applyMask_full (fg : Nat → Nat → Bool) (free : Nat → Bool) (n m : Nat) {g : Grid}
    (h : g.full) : (applyMask fg free n m g).full := by
  unfold applyMask
  induction windowCells n generalizing g with
  | nil => exact h
  | cons c l ih =>
    refine ih ?_
    unfold toggleCell
    split
    · exact Grid.full_set h _ _ _
    · exact h

theorem applyMask_wf (fg : Nat → Nat → Bool) (free : Nat → Bool) (n m : Nat) {g : Grid}
    (h : g.wf) : (applyMask fg free n m g).wf := by
  unfold applyMask
  induction windowCells n generalizing g with
  | nil => exact h
  | cons c l ih =>
    refine ih ?_
    unfold toggleCell
    split
    · exact Grid.wf_set h _ _ _
    · exact h

/-- The penalty depends on the cells of the window only. -/
theorem penalty_congr {free free' : Nat → Bool} {n : Nat} {g g' : Grid}
    (h : ∀ x < n, ∀ y < n, g.read free x y = g'.read free' x y) :
    penalty free n g = penalty free' n g' := by
  unfold penalty gridRow
  congr 1
  apply List.map_congr_left
  intro y hy
  congr 1
  apply List.map_congr_left
  intro x hx
  exact h x (List.mem_range.mp hx) y (List.mem_range.mp hy)

/-- After `k` candidates with the penalties `pen`, the pair kept is the least penalty and the least
index that has it; before the first candidate there is none (R124). -/
def BestOf (pen : Nat → Nat) (k : Nat) : Option (Nat × Nat) → Prop
  | none => k = 0
  | some (b, bm) => b = pen bm ∧ bm < k ∧ (∀ m < k, b ≤ pen m) ∧ ∀ m < bm, b < pen m

/-- One comparison (R118, R124). -/
theorem better_bestOf {pen : Nat → Nat} {k : Nat} {best : Option (Nat × Nat)}
    (h : BestOf pen k best) : BestOf pen (k + 1) (better best (pen k) k) := by
  cases best with
  | none =>
    obtain rfl : k = 0 := h
    refine ⟨rfl, by omega, fun m hm => ?_, fun m hm => absurd hm (Nat.not_lt_zero m)⟩
    obtain rfl : m = 0 := by omega
    exact Nat.le_refl _
  | some p =>
    obtain ⟨b, bm⟩ := p
    obtain ⟨hb, hlt, hmin, hfst⟩ := h
    simp only [better]
    split
    · rename_i hp
      refine ⟨rfl, by omega, fun m hm => ?_, fun m hm => ?_⟩
      · rcases Nat.lt_succ_iff_lt_or_eq.mp hm with hm | rfl
        · have := hmin m hm; omega
        · exact Nat.le_refl _
      · have := hmin m hm; omega
    · rename_i hp
      refine ⟨hb, by omega, fun m hm => ?_, hfst⟩
      rcases Nat.lt_succ_iff_lt_or_eq.mp hm with hm | rfl
      · exact hmin m hm
      · omega

/-- The loop from candidate `k` on: the grid reads as at the start, and the choice is the least of
all candidates scored on the grid at the start (R122, R124). -/
theorem tryMasks_spec (fg : Nat → Nat → Bool) (free : Nat → Bool) {n : Nat} (hn : n ≤ 57)
    (g : Grid) (j k : Nat) (g' : Grid) (best : Option (Nat × Nat))
    (hg : ∀ x < 57, ∀ y, g'.read free x y = g.read free x y)
    (hbest : BestOf (fun m => penalty free n (applyMask fg free n m g)) k best) :
    (∀ x < 57, ∀ y,
      (tryMasks fg free n (List.range' k j) g' best).1.read free x y = g.read free x y) ∧
    BestOf (fun m => penalty free n (applyMask fg free n m g)) (k + j)
      (tryMasks fg free n (List.range' k j) g' best).2 := by
  induction j generalizing k g' best with
  | zero => exact ⟨hg, hbest⟩
  | succ j ih =>
    rw [List.range'_succ]
    simp only [tryMasks]
    have hpen : penalty free n (applyMask fg free n k g') =
        penalty free n (applyMask fg free n k g) := by
      refine penalty_congr fun x hx y _ => ?_
      rw [applyMask_read fg free hn k _ (by omega), applyMask_read fg free hn k _ (by omega),
        hg x (by omega)]
    have := ih (k + 1) (applyMask fg free n k (applyMask fg free n k g'))
      (better best (penalty free n (applyMask fg free n k g')) k)
      (fun x hx y => by
        rw [applyMask_read fg free hn k _ hx, applyMask_read fg free hn k _ hx, Bool.xor_assoc,
          Bool.xor_self, Bool.xor_false, hg x hx])
      (by rw [hpen]; exact better_bestOf hbest)
    rwa [show k + (j + 1) = k + 1 + j by omega]

theorem tryMasks_full (fg : Nat → Nat → Bool) (free : Nat → Bool) (n : Nat) (l : List Nat)
    {g : Grid} (best : Option (Nat × Nat)) (h : g.full) :
    (tryMasks fg free n l g best).1.full := by
  induction l generalizing g best with
  | nil => exact h
  | cons m l ih => exact ih _ (applyMask_full fg free n m (applyMask_full fg free n m h))

theorem tryMasks_wf (fg : Nat → Nat → Bool) (free : Nat → Bool) (n : Nat) (l : List Nat)
    {g : Grid} (best : Option (Nat × Nat)) (h : g.wf) :
    (tryMasks fg free n l g best).1.wf := by
  induction l generalizing g best with
  | nil => exact h
  | cons m l ih => exact ih _ (applyMask_wf fg free n m (applyMask_wf fg free n m h))

/-- Everything `MASK` can do. -/
theorem execMask_eq_next {s t : State} :
    execMask s = .next t ↔
      s.size.toNat ≤ 57 ∧
      t = { s with
        mg := applyMask s.fgAt (Config.freeMg s.epoch) s.size.toNat
          (bestIndex (tryMasks s.fgAt (Config.freeMg s.epoch) s.size.toNat (List.range 8) s.mg
            none).2)
          (tryMasks s.fgAt (Config.freeMg s.epoch) s.size.toNat (List.range 8) s.mg none).1
        mask := BitVec.ofNat 3
          (bestIndex (tryMasks s.fgAt (Config.freeMg s.epoch) s.size.toNat (List.range 8) s.mg
            none).2)
        phase := Phase.masked } := by
  unfold execMask
  split
  · rename_i h; simp only [Config.gridSide] at h; simp; omega
  · rename_i h
    simp only [Config.gridSide] at h
    simp only [Host.Outcome.next.injEq, Nat.le_of_not_lt h, true_and]
    exact eq_comm

end Sys2Proof.Machine
end

