-- ==== Sys2Proof/Laws/Pattern.lean ====
section
/-! SUPPORT. The writes of `PATTERN` lie in the window, and everything `PATTERN` can do. -/

namespace Sys2Proof.Machine

theorem mem_finders {n : Nat} {w : CellWrite} :
    w ∈ finders n ↔ ∃ o ∈ finderOrigins n, ∃ dy : Nat, dy < 7 ∧ ∃ dx : Nat, dx < 7 ∧
      (⟨o.1 + (dx : Int), o.2 + (dy : Int), finderBit dx dy⟩ : CellWrite) = w := by
  simp [finders]

/-- The separators write light cells of the ring, inside the grid (R97). -/
theorem mem_separators {n : Nat} {w : CellWrite} :
    w ∈ separators n ↔ w.bit = false ∧ (0 ≤ w.x ∧ w.x < n ∧ 0 ≤ w.y ∧ w.y < n) ∧
      ∃ o ∈ finderOrigins n,
        (-1 ≤ w.x - o.1 ∧ w.x - o.1 ≤ 7) ∧ (-1 ≤ w.y - o.2 ∧ w.y - o.2 ≤ 7) ∧
        (w.x - o.1 = -1 ∨ w.x - o.1 = 7 ∨ w.y - o.2 = -1 ∨ w.y - o.2 = 7) := by
  obtain ⟨x, y, b⟩ := w
  simp only [separators, List.mem_flatMap, List.mem_range, List.mem_filterMap]
  constructor
  · rintro ⟨o, ho, j, hj, i, hi, hs⟩
    split at hs
    · split at hs
      · rename_i hr hw
        cases hs
        exact ⟨rfl, hw, o, ho, by omega, by omega, by omega⟩
      · cases hs
    · cases hs
  · rintro ⟨hb, hw, o, ho, hx, hy, hr⟩
    subst hb
    refine ⟨o, ho, (y - o.2 + 1).toNat, by omega, (x - o.1 + 1).toNat, by omega, ?_⟩
    rw [if_pos (by omega), if_pos (by omega)]
    simp only [Option.some.injEq, CellWrite.mk.injEq, and_true]
    omega

theorem mem_timing {n : Nat} {w : CellWrite} :
    w ∈ timing n ↔ ∃ i, (8 ≤ i ∧ i + 9 ≤ n) ∧
      (w = ⟨(i : Int), 6, i % 2 == 0⟩ ∨ w = ⟨6, (i : Int), i % 2 == 0⟩) := by
  simp only [timing, List.mem_flatMap, List.mem_range'_1, List.mem_cons, List.not_mem_nil, or_false]
  refine exists_congr fun i => and_congr_left fun _ => ?_
  omega

theorem mem_drawAlign {c : Nat × Nat} {w : CellWrite} :
    w ∈ drawAlign c ↔ ∃ j : Nat, j < 5 ∧ ∃ i : Nat, i < 5 ∧
      (⟨(c.1 : Int) + (i : Int) - 2, (c.2 : Int) + (j : Int) - 2,
        alignBit ((i : Int) - 2) ((j : Int) - 2)⟩ : CellWrite) = w := by
  simp [drawAlign]

theorem mem_finderOrigins {n : Nat} {o : Int × Int} :
    o ∈ finderOrigins n ↔ o = (0, 0) ∨ o = ((n : Int) - 7, 0) ∨ o = (0, (n : Int) - 7) := by
  simp [finderOrigins]

/-- The patterns of every version lie in the window (R96 to R98). -/
theorem basePatterns_inWindow {n : Nat} (hlo : 7 ≤ n) (hhi : n ≤ 57) :
    (basePatterns n).all (CellWrite.inWindow n) = true := by
  rw [List.all_eq_true]
  intro w hw
  rw [CellWrite.inWindow_iff]
  simp only [basePatterns, List.mem_append] at hw
  rcases hw with (hw | hw) | hw
  · obtain ⟨o, ho, dy, hdy, dx, hdx, rfl⟩ := mem_finders.mp hw
    rcases mem_finderOrigins.mp ho with rfl | rfl | rfl <;> simp only <;> omega
  · have := (mem_separators.mp hw).2.1
    omega
  · obtain ⟨i, hi, rfl | rfl⟩ := mem_timing.mp hw <;> simp only <;> omega

/-- The alignment patterns of a legal configuration lie in the window (R43, R99). -/
theorem alignment_inWindow {c : Config} (h : configLegal c = true) {v : Nat}
    (hv : 1 ≤ v ∧ v ≤ 10) {l : List Nat} (hl : alignAt? c v = some l) :
    (alignment (sizeOfVersion v) l).all (CellWrite.inWindow (sizeOfVersion v)) = true := by
  rw [List.all_eq_true]
  intro w hw
  rw [CellWrite.inWindow_iff]
  simp only [alignment, List.mem_flatMap] at hw
  obtain ⟨p, hp, hw⟩ := hw
  have hb := configLegal_align h hv hl hp
  have hn := sizeOfVersion_bounds hv
  obtain ⟨j, hj, i, hi, rfl⟩ := mem_drawAlign.mp hw
  simp only
  omega

/-- The writes of `PATTERN` for the version and side in the state. -/
def State.patternWrites (s : State) : List CellWrite :=
  if s.version.toNat > 1 then
    basePatterns s.size.toNat ++
      alignment s.size.toNat ((alignAt? s.config s.version.toNat).getD [])
  else basePatterns s.size.toNat

/-- Everything `PATTERN` can do. -/
theorem execPattern_cases {s t : State} (h : execPattern s = .next t) :
    ((s.mgdim ≠ s.size ∨ s.fgdim ≠ s.size) ∧ t = s.raise .internal) ∨
    (s.mgdim = s.size ∧ s.fgdim = s.size ∧
      s.patternWrites.all (CellWrite.inWindow s.size.toNat) = true ∧
      t = { s.setfAll s.patternWrites with phase := Phase.patternsPlaced }) := by
  unfold execPattern at h
  split at h
  · rename_i hd; cases h; exact .inl ⟨hd, rfl⟩
  · rename_i hd
    simp only [not_or, ne_eq, not_not] at hd
    refine .inr ⟨hd.1, hd.2, ?_⟩
    unfold State.patternWrites
    split at h
    · rename_i hv
      rw [if_pos hv]
      split at h
      · cases h
      · rename_i l hl
        rw [hl]
        exact State.drawThen_eq_next.mp h
    · rename_i hv
      rw [if_neg hv]
      exact State.drawThen_eq_next.mp h

/-- `PATTERN` draws where the dimensions agree and the symbol is legal. -/
theorem execPattern_draws {s : State} (hc : configLegal s.config = true)
    (hv : 1 ≤ s.version.toNat ∧ s.version.toNat ≤ 10)
    (hn : s.size.toNat = sizeOfVersion s.version.toNat) (hm : s.mgdim = s.size)
    (hf : s.fgdim = s.size) :
    execPattern s = .next { s.setfAll s.patternWrites with phase := Phase.patternsPlaced } ∧
      s.patternWrites.all (CellWrite.inWindow s.size.toNat) = true := by
  have hb := sizeOfVersion_bounds hv
  obtain ⟨l, hl⟩ := alignAt?_isSome (c := s.config) hv
  have hbase := basePatterns_inWindow (n := s.size.toNat) (by omega) (by omega)
  have hal := alignment_inWindow hc hv hl
  rw [← hn] at hal
  unfold execPattern State.patternWrites
  rw [if_neg (by simp [hm, hf]), hl]
  split
  · have hall : (basePatterns s.size.toNat ++ alignment s.size.toNat l).all
        (CellWrite.inWindow s.size.toNat) = true := by
      rw [List.all_append, hbase, hal]; rfl
    exact ⟨State.drawThen_eq_next.mpr ⟨hall, rfl⟩, hall⟩
  · exact ⟨State.drawThen_eq_next.mpr ⟨hbase, rfl⟩, hbase⟩

end Sys2Proof.Machine
end

