-- ==== Sys2Proof/Laws/Place.lean ====
section
/-! SUPPORT. Where the zigzag goes, what `placeCells` writes and leaves, and everything `PLACE` can
do. -/

namespace Sys2Proof.Machine

/-- The columns a right column stands for are in range and not column 6 (R112). -/
theorem rightColumns_bounds {fuel right r : Nat} (hr : r ∈ rightColumns fuel right) :
    1 ≤ r ∧ r ≤ right := by
  induction fuel generalizing right with
  | zero => simp [rightColumns] at hr
  | succ fuel ih =>
    simp only [rightColumns] at hr
    split at hr
    · simp at hr
    · rcases List.mem_cons.mp hr with rfl | hr
      · split <;> omega
      · have := ih hr
        split at this <;> omega

theorem mem_pairCells {n r : Nat} {up : Bool} {c : Nat × Nat} :
    c ∈ pairCells n up r ↔ (c.1 = r ∨ c.1 = r - 1) ∧ c.2 < n := by
  obtain ⟨x, y⟩ := c
  simp only [pairCells, pairRows, List.mem_flatMap, List.mem_map, List.mem_range, List.mem_cons,
    List.not_mem_nil, or_false, Prod.mk.injEq]
  constructor
  · rintro ⟨y', ⟨t, ht, rfl⟩, h⟩
    cases up <;> simp at h <;> omega
  · rintro ⟨hx, hy⟩
    refine ⟨y, ?_, by omega⟩
    cases up
    · exact ⟨y, hy, by simp⟩
    · exact ⟨n - 1 - y, by omega, by simp; omega⟩

theorem mem_pairsCells {n : Nat} {rs : List Nat} {up : Bool} {c : Nat × Nat} :
    c ∈ pairsCells n up rs ↔ (∃ r ∈ rs, c.1 = r ∨ c.1 = r - 1) ∧ c.2 < n := by
  induction rs generalizing up with
  | nil => simp [pairsCells]
  | cons r rs ih =>
    simp only [pairsCells, List.mem_append, mem_pairCells, ih, List.mem_cons, exists_eq_or_imp]
    exact or_and_right.symm

/-- Every visited cell lies in the window (R116). -/
theorem visits_inWindow {n : Nat} {c : Nat × Nat} (hc : c ∈ visits n) : c.1 < n ∧ c.2 < n := by
  obtain ⟨⟨r, hr, hx⟩, hy⟩ := mem_pairsCells.mp hc
  have := rightColumns_bounds hr
  omega

/-- A cell off the list, or function-owned, is not written (R115). -/
theorem placeCells_read_other (fg : Nat → Nat → Bool) (bit : Nat → Bool) (free : Nat → Bool)
    (l : List (Nat × Nat)) (hl : ∀ c ∈ l, c.1 < 57) (k : Nat) (g : Grid) {x y : Nat}
    (hx : x < 57) (h : fg x y = true ∨ (x, y) ∉ l) :
    (placeCells fg bit l k g).read free x y = g.read free x y := by
  induction l generalizing k g with
  | nil => rfl
  | cons c l ih =>
    obtain ⟨cx, cy⟩ := c
    have hl' : ∀ c ∈ l, c.1 < 57 := fun c hc => hl c (List.mem_cons_of_mem _ hc)
    have h' : fg x y = true ∨ (x, y) ∉ l :=
      h.imp_right fun h hm => h (List.mem_cons_of_mem _ hm)
    simp only [placeCells]
    split
    · exact ih hl' _ _ h'
    · rename_i hf
      rw [ih hl' _ _ h', Grid.read_set_other _ _ _ (hl (cx, cy) List.mem_cons_self) hx]
      rintro heq
      cases heq
      rcases h with h | h
      · exact hf h
      · exact h List.mem_cons_self

/-- The number of cells of the list that are not function-owned. -/
def freeCount (fg : Nat → Nat → Bool) (l : List (Nat × Nat)) : Nat :=
  l.countP fun c => !fg c.1 c.2

/-- A free cell receives the bit whose number is the count of free cells before it (R115, R117 item
4). -/
theorem placeCells_read_at (fg : Nat → Nat → Bool) (bit : Nat → Bool) (free : Nat → Bool)
    (pre post : List (Nat × Nat)) (k : Nat) (g : Grid) {x y : Nat}
    (hx : x < 57) (hy : y < 57) (hpost : ∀ c ∈ post, c.1 < 57) (hnot : (x, y) ∉ post)
    (hfree : fg x y = false) :
    (placeCells fg bit (pre ++ (x, y) :: post) k g).read free x y =
      bit (k + freeCount fg pre) := by
  induction pre generalizing k g with
  | nil =>
    simp only [List.nil_append, placeCells, hfree, Bool.false_eq_true, if_false]
    rw [placeCells_read_other fg bit free post hpost _ _ hx (.inr hnot),
      Grid.read_set_same _ _ _ hx hy]
    simp [freeCount]
  | cons c pre ih =>
    obtain ⟨cx, cy⟩ := c
    simp only [List.cons_append, placeCells]
    split
    · rename_i hf
      rw [ih]
      simp [freeCount, hf]
    · rename_i hf
      rw [ih]
      simp [freeCount, hf]
      congr 1
      omega

theorem placeCells_full (fg : Nat → Nat → Bool) (bit : Nat → Bool) (l : List (Nat × Nat))
    (k : Nat) {g : Grid} (h : g.full) : (placeCells fg bit l k g).full := by
  induction l generalizing k g with
  | nil => exact h
  | cons c l ih =>
    obtain ⟨cx, cy⟩ := c
    simp only [placeCells]
    split
    · exact ih _ h
    · exact ih _ (Grid.full_set h _ _ _)

theorem placeCells_wf (fg : Nat → Nat → Bool) (bit : Nat → Bool) (l : List (Nat × Nat))
    (k : Nat) {g : Grid} (h : g.wf) : (placeCells fg bit l k g).wf := by
  induction l generalizing k g with
  | nil => exact h
  | cons c l ih =>
    obtain ⟨cx, cy⟩ := c
    simp only [placeCells]
    split
    · exact ih _ h
    · exact ih _ (Grid.wf_set h _ _ _)

/-- Everything `PLACE` can do. -/
theorem execPlace_eq_next {s t : State} :
    execPlace s = .next t ↔
      ∃ c, capAt? s.config s.version.toNat s.level.toNat = some c ∧ s.size.toNat ≤ 57 ∧
        t = { s with
          mg := placeCells s.fgAt (s.placedBit (8 * c)) (visits s.size.toNat) 0 s.mg
          phase := Phase.dataPlaced } := by
  unfold execPlace
  cases hc : capAt? s.config s.version.toNat s.level.toNat with
  | none => simp
  | some c =>
    simp only [Config.gridSide, Option.some.injEq, exists_eq_left', gt_iff_lt]
    split
    · rename_i h; simp; omega
    · rename_i h
      simp only [Host.Outcome.next.injEq, Nat.le_of_not_lt h, true_and]
      exact eq_comm

end Sys2Proof.Machine
end

