-- ==== Sys2Proof/Laws/Step.lean ====
section
/-! SUPPORT. What every instruction leaves alone, what a step does by the head of the script, and the
word placed for the next step. -/

namespace Sys2Proof.Machine

/-- Everything `RDCELL` can do: two fields of the model's own. -/
theorem execRdcell_cases (x y : Nat) (s : State) :
    (s.phase = Phase.formatEmbedded ∧ rdCellInWindow s.size.toNat x y = true ∧
      execRdcell x y s = .next { s with rdDark := s.mgAt x y }) ∨
    (¬(s.phase = Phase.formatEmbedded ∧ rdCellInWindow s.size.toNat x y = true) ∧
      execRdcell x y s =
        .next { s with rdDark := Config.freeRdDark s.anyReads, anyReads := s.anyReads + 1 }) := by
  unfold execRdcell State.done
  by_cases h : s.phase = Phase.formatEmbedded ∧ rdCellInWindow s.size.toNat x y = true
  · exact .inl ⟨h.1, h.2, by simp [h.1, h.2]⟩
  · refine .inr ⟨h, ?_⟩
    rw [if_neg]
    simpa using h

/-- What every instruction leaves alone when it gives a next state. -/
structure Kept (s t : State) : Prop where
  config : t.config = s.config
  script : t.script = s.script

theorem exec_kept {i : Instr} {s t : State} (h : exec i s = .next t) : Kept s t := by
  cases i with
  | reset => cases h; exact ⟨rfl, rfl⟩
  | clear =>
    simp only [exec, execClear] at h
    split at h <;> cases h <;> exact ⟨rfl, rfl⟩
  | start n =>
    simp only [exec, execStart] at h
    split at h <;> cases h <;> exact ⟨rfl, rfl⟩
  | pwrite a d =>
    simp only [exec, execPwrite] at h
    split at h <;> cases h <;> exact ⟨rfl, rfl⟩
  | noph => cases h; exact ⟨rfl, rfl⟩
  | create =>
    rcases execCreate_cases h with ⟨_, rfl⟩ | ⟨_, _, rfl⟩ | ⟨_, v, e, _, rfl⟩ <;> exact ⟨rfl, rfl⟩
  | pattern => rcases execPattern_cases h with ⟨_, rfl⟩ | ⟨_, _, _, rfl⟩ <;> exact ⟨rfl, rfl⟩
  | encode => obtain ⟨c, _, _, rfl⟩ := execEncode_eq_next.mp h; exact ⟨rfl, rfl⟩
  | place => obtain ⟨c, _, _, rfl⟩ := execPlace_eq_next.mp h; exact ⟨rfl, rfl⟩
  | mask => obtain ⟨_, rfl⟩ := execMask_eq_next.mp h; exact ⟨rfl, rfl⟩
  | format => obtain ⟨_, rfl⟩ := execFormat_eq_next.mp h; exact ⟨rfl, rfl⟩
  | waitIdle => cases h; exact ⟨rfl, rfl⟩
  | waitFormatEmbedded => cases h; exact ⟨rfl, rfl⟩
  | waitFailed => cases h; exact ⟨rfl, rfl⟩
  | reserved9 => cases h
  | reserved10 => cases h
  | reserved11 => cases h
  | reserved12 => cases h
  | reserved13 => cases h
  | reserved14 => cases h
  | reserved15 => cases h
  | rdcell x y =>
    rcases execRdcell_cases x y s with ⟨_, _, hr⟩ | ⟨_, hr⟩ <;>
      (rw [exec, hr] at h; cases h; exact ⟨rfl, rfl⟩)

/-- The step is the decoded instruction on the state with one line of the script taken. -/
theorem step_eq (s : State) :
    step s = exec (decode s.fetch.1) { s with script := s.script.tail } := by
  rw [step, State.fetch_state]

/-- What the fetch presents, by the head of the script. -/
theorem fetch_cases (s : State) :
    ((s.script = [] ∨ ∃ rest, s.script = .seq :: rest) ∧ s.fetch.1 = .formatS s.phase) ∨
    (∃ p rest, s.script = .host p :: rest ∧ s.fetch.1 = .formatH p) ∨
    (∃ x y rest, s.script = .read x y :: rest ∧ s.fetch.1 = .readPort x y) := by
  unfold State.fetch
  split <;> rename_i h
  · exact .inl ⟨.inl h, rfl⟩
  · exact .inl ⟨.inr ⟨_, h⟩, rfl⟩
  · exact .inr (.inl ⟨_, _, h, rfl⟩)
  · exact .inr (.inr ⟨_, _, _, h, rfl⟩)

end Sys2Proof.Machine
end

