-- ==== Sys2Proof/Machine/Script.lean ====
section
/-! DEFINITION. The lines and the pseudo-instructions of the trace notation, each as the list of
lines it stands for (`30_encoding.md` R71, R72). -/

namespace Sys2Proof.Machine

/-- `RESET` with no other strobe (R71). -/
def lineReset : Line := .host (.plain 0b1000#4)

/-- `CLEAR` with no other strobe (R71). -/
def lineClear : Line := .host (.plain 0b0100#4)

/-- `START n` (R71). -/
def lineStart (n : Nat) : Line := .host ⟨0b0010#4, BitVec.ofNat 16 n, 0, 0⟩

/-- `PWRITE a, d` (R71). -/
def linePwrite (a : Nat) (d : Byte) : Line := .host ⟨0b0001#4, 0, BitVec.ofNat 9 a, d⟩

/-- `NOPH` (R71). -/
def lineNoph : Line := .host (.plain 0b0000#4)

/-- `RDCELL x, y` (R71). -/
def lineRdcell (x y : Nat) : Line := .read (BitVec.ofNat 6 x) (BitVec.ofNat 6 y)

/-- `LOADB b0 b1 ...`, and `LOAD` for the bytes of the text (R72). -/
def scriptLoad (bytes : List Byte) : List Line :=
  (List.range bytes.length).zipWith (fun a d => linePwrite a d) bytes

/-- `RUN`: six steps; a step at a terminal phase changes nothing (R72, R80). -/
def scriptRun : List Line := List.replicate 6 .seq

/-- `GENERATE` (R72). -/
def scriptGenerate (bytes : List Byte) : List Line :=
  scriptLoad bytes ++ [lineStart bytes.length] ++ scriptRun

/-- `DUMP` of a grid of side `n` (R72). -/
def scriptDump (n : Nat) : List Line :=
  (List.range n).flatMap fun y => (List.range n).map fun x => lineRdcell x y

end Sys2Proof.Machine
end

