-- ==== Sys2Proof/Tests/Slice0.lean ====
section
/-! SUPPORT. Tests: ill-formed instructions, decoded words, the spec's vectors
(`95_test_vectors.md`), and for each obligation with hypotheses a state that meets them. -/

namespace Sys2Proof.Tests

open Sys2Proof Sys2Proof.Machine

/-! ## Ill-formed instructions are refused by the check -/

/-- R55: `plen` has 16 bits. -/
theorem test_start_65536_is_ill_formed : Instr.wellFormed (.start 65536) = false := by decide

/-- R55: `pw_addr` has 9 bits. -/
theorem test_pwrite_512_is_ill_formed : Instr.wellFormed (.pwrite 512 0) = false := by decide

/-- R25: `rd_x` has 6 bits. -/
theorem test_rdcell_x_64_is_ill_formed : Instr.wellFormed (.rdcell 64 0) = false := by decide

/-- R25: `rd_y` has 6 bits. -/
theorem test_rdcell_y_64_is_ill_formed : Instr.wellFormed (.rdcell 0 64) = false := by decide

/-! ## Decoding -/

/-- R56 and V1: the highest set bit wins. -/
theorem test_decode_format_H :
    decodeH ⟨0b1111#4, 0, 0, 0⟩ = .reset ∧ decodeH ⟨0b1000#4, 0, 0, 0⟩ = .reset ∧
    decodeH ⟨0b0110#4, 0, 0, 0⟩ = .clear ∧ decodeH ⟨0b0011#4, 21, 0, 0⟩ = .start 21 ∧
    decodeH ⟨0b0001#4, 7, 511, 0x41#8⟩ = .pwrite 511 0x41#8 ∧
    decodeH ⟨0b0000#4, 7, 5, 0x41#8⟩ = .noph := by decide

/-- R57, R58, R70: the phase codes. -/
theorem test_decode_format_S :
    (List.range 16).map (fun k => decodeS (BitVec.ofNat 4 k)) =
      [.waitIdle, .create, .pattern, .encode, .place, .mask, .format] ++
      [.waitFormatEmbedded, .waitFailed, .reserved9, .reserved10, .reserved11] ++
      [.reserved12, .reserved13, .reserved14, .reserved15] := by decide +kernel

/-- The read port: `rd_x` and `rd_y` are not exchanged. -/
theorem test_decode_read_port : decode (.readPort 8#6 13#6) = .rdcell 8 13 := by decide

/-- Trace words (log 8), field by field: the vector, the format, then the operand ports. -/
theorem test_decode_trace_words :
    decodeTableWord 41 0b00000000_000000000_0000000000000000_0001_1000 = some .reset ∧
    decodeTableWord 41 0b00000000_000000000_0000000000000000_0001_0100 = some .clear ∧
    decodeTableWord 41 0b00000000_000000000_0000000000010101_0001_0010 = some (.start 21) ∧
    decodeTableWord 41 0b01101000_100001011_0000000000000000_0001_0001 =
      some (.pwrite 267 0x68#8) ∧
    decodeTableWord 41 0b00000000_000000000_0000000000000000_0001_0000 = some .noph ∧
    decodeTableWord 4 0b0001 = some .create ∧
    decodeTableWord 20 0b001101_001000_0010_0000 = some (.rdcell 8 13) := by decide +kernel

/-- A word of an unknown format, and words with a bit above their last field, are rejected by
name. -/
theorem test_rejected_words :
    fetchedOfWord 0b0011_0000 = .error (.unknownFormat 3) ∧
    fetchedOfWord 0b1_0000_0001 = .error (.strayBits 0) ∧
    fetchedOfWord (2 ^ 41 + 0b0001_0000) = .error (.strayBits 1) ∧
    fetchedOfWord 0b0010_0001 = .error (.strayBits 2) := by
  refine ⟨rfl, rfl, rfl, rfl⟩

/-! ## Helpers -/

/-- A grid of side `n` from its rows, the leftmost cell the highest bit of a row; every cell of the
storage counts as written. -/
def gridOf (n : Nat) (rows : List Nat) : Grid where
  written := BitVec.allOnes gridCells
  value := BitVec.ofNat gridCells <| (windowCells n).foldl (fun acc c =>
    if (rows.getD c.2 0).testBit (n - 1 - c.1) then acc ||| 1 <<< cellIndex c.1 c.2 else acc) 0

/-- The rows of the window of side `n`, the leftmost cell the highest bit. -/
def rowsOf (n : Nat) (cell : Nat → Nat → Bool) : List Nat :=
  (List.range n).map fun y => numberOfBits ((List.range n).map fun x => cell x y)

/-- The instruction answers a next state with the property `p`. -/
def holdsAfter (i : Instr) (s : State) (p : State → Bool) : Bool :=
  match exec i s with
  | .next t => p t
  | _ => false

/-- The symbol of the payload "A" (V25, V30, V41): version 1, level High. -/
def symbolA (phase : Nibble) (mg fg : Grid) : State :=
  { State.reset with
    phase := phase, version := 1, level := 3, size := 21, mgdim := 21, fgdim := 21, plen := 1
    pbuf := [(0, 0x41)]
    cw := [(0, 0x40), (1, 0x14), (2, 0x10), (3, 0xEC), (4, 0x11), (5, 0xEC), (6, 0x11)]
    mg := mg, fg := fg }

/-- V10, `MG`. -/
def v10mg : List Nat :=
  [0b111111100000001111111, 0b100000100000001000001, 0b101110100000001011101,
    0b101110100000001011101, 0b101110100000001011101, 0b100000100000001000001,
    0b111111101010101111111] ++
  [0b000000000000000000000, 0b000000100000000000000, 0b000000000000000000000,
    0b000000100000000000000, 0b000000000000000000000, 0b000000100000000000000,
    0b000000000000000000000] ++
  [0b111111100000000000000, 0b100000100000000000000, 0b101110100000000000000,
    0b101110100000000000000, 0b101110100000000000000, 0b100000100000000000000,
    0b111111100000000000000]

/-- V10, `FG`. -/
def v10fg : List Nat :=
  [0b111111110000011111111, 0b111111110000011111111, 0b111111110000011111111,
    0b111111110000011111111, 0b111111110000011111111, 0b111111110000011111111,
    0b111111111111111111111] ++
  [0b111111110000011111111, 0b000000100000000000000, 0b000000100000000000000,
    0b000000100000000000000, 0b000000100000000000000, 0b000000100000000000000,
    0b111111110000000000000] ++
  [0b111111110000000000000, 0b111111110000000000000, 0b111111110000000000000,
    0b111111110000000000000, 0b111111110000000000000, 0b111111110000000000000,
    0b111111110000000000000]

/-- V29, `MG`. -/
def v29mg : List Nat :=
  [0b111111100000001111111, 0b100000100000001000001, 0b101110100000001011101,
    0b101110100000001011101, 0b101110100000001011101, 0b100000100000001000001,
    0b111111101010101111111] ++
  [0b000000000000000000000, 0b000000100000000000111, 0b000000000000000001100,
    0b000000100000000000000, 0b000000000000000000010, 0b000000100000000001000,
    0b000000000000000000000] ++
  [0b111111100000000001010, 0b100000100000000001110, 0b101110100000000000100,
    0b101110100000000001100, 0b101110100000000000000, 0b100000100000000100000,
    0b111111100000000001010]

/-- V30, `MG`. -/
def v30mg : List Nat :=
  [0b111111101010101111111, 0b100000100111001000001, 0b101110100011101011101,
    0b101110100101001011101, 0b101110101000101011101, 0b100000101100001000001,
    0b111111101010101111111] ++
  [0b000000000111000000000, 0b100011100011100011011, 0b010101010101010100110,
    0b111000111000111000111, 0b011100011100011100001, 0b101010101010101011101,
    0b000000000111000111000] ++
  [0b111111100011100010110, 0b100000100101010100100, 0b101110101000111000011,
    0b101110101100011101111, 0b101110101010101010101, 0b100000100111000011000,
    0b111111100011100010110]

/-- V41, `MG`. -/
def v41mg : List Nat :=
  [0b111111101010101111111, 0b100000101111001000001, 0b101110100011101011101,
    0b101110101101001011101, 0b101110101000101011101, 0b100000101100001000001,
    0b111111101010101111111] ++
  [0b000000000111000000000, 0b000100100011100111011, 0b010101010101010100110,
    0b111000111000111000111, 0b011100011100011100001, 0b101010101010101011101,
    0b000000001111000111000] ++
  [0b111111100011100010110, 0b100000100101010100100, 0b101110100000111000011,
    0b101110101100011101111, 0b101110100010101010101, 0b100000100111000011000,
    0b111111100011100010110]

/-- V41, `FG`. -/
def v41fg : List Nat :=
  [0b111111111000011111111, 0b111111111000011111111, 0b111111111000011111111,
    0b111111111000011111111, 0b111111111000011111111, 0b111111111000011111111,
    0b111111111111111111111] ++
  [0b111111111000011111111, 0b111111111000011111111, 0b000000100000000000000,
    0b000000100000000000000, 0b000000100000000000000, 0b000000100000000000000,
    0b111111111000000000000] ++
  [0b111111111000000000000, 0b111111111000000000000, 0b111111111000000000000,
    0b111111111000000000000, 0b111111111000000000000, 0b111111111000000000000,
    0b111111111000000000000]

/-! ## One step each, against the spec's vectors -/

/-- V1, R74: `RESET` from `MASKED`. -/
theorem test_reset_from_masked :
    holdsAfter .reset (symbolA 6 (gridOf 21 v30mg) (gridOf 21 v10fg)) (fun t =>
      t.phase == 0 && t.version == 0 && t.size == 0 && t.mgdim == 0 && t.plen == 0 &&
      t.pbuf == [] && t.mg.written == 0) = true := by decide +kernel

/-- V1: `CLEAR` in `FORMAT_EMBEDDED` keeps `PBUF`. -/
theorem test_clear_from_format_embedded :
    holdsAfter .clear (symbolA 7 Grid.cleared Grid.cleared) (fun t =>
      t.phase == 0 && t.version == 0 && t.level == 0 && t.size == 0 && t.mgdim == 0 &&
      t.fgdim == 0 && t.plen == 0 && t.pbuf == [(0, 0x41)]) = true := by decide +kernel

/-- V1: `CLEAR` in `MASKED` is ignored. -/
theorem test_clear_ignored_in_masked :
    holdsAfter .clear (symbolA 6 Grid.cleared Grid.cleared)
      (fun t => t == symbolA 6 Grid.cleared Grid.cleared) = true := by decide +kernel

/-- The example of R76. -/
theorem test_start_in_idle :
    holdsAfter (.start 21) State.reset (fun t => t.phase == 1 && t.plen == 21) = true := by
  decide +kernel

/-- V1: `START 5` in `FAILED` is ignored. -/
theorem test_start_ignored_in_failed :
    holdsAfter (.start 5) { State.reset with phase := 8, err := 2 }
      (fun t => t.phase == 8 && t.err == 2 && t.plen == 0) = true := by decide +kernel

/-- V1: `PWRITE 267, 0xFF`, and the order of the list whichever byte is written first. -/
theorem test_pwrite_last_byte :
    holdsAfter (.pwrite 0 0x41) { State.reset with pbuf := [(267, 0xFF)] }
      (fun t => t.pbuf == [(0, 0x41), (267, 0xFF)]) = true := by decide +kernel

/-- V1: `PWRITE 268, 0xFF` is out of range. -/
theorem test_pwrite_268_ignored :
    holdsAfter (.pwrite 268 0xFF) State.reset (fun t => t == State.reset) = true := by
  decide +kernel

/-- R78. -/
theorem test_noph : holdsAfter .noph State.reset (fun t => t == State.reset) = true := by
  decide +kernel

/-- V2: the dark module of the finished symbol. -/
theorem test_rdcell_dark_module :
    holdsAfter (.rdcell 8 13) (symbolA 7 (gridOf 21 v41mg) (gridOf 21 v41fg))
      (fun t => t.rdDark && t.anyReads == 0) = true := by decide +kernel

/-- V2: `RDCELL 21, 0` is outside the window: a free value. -/
theorem test_rdcell_outside :
    holdsAfter (.rdcell 21 0) (symbolA 7 (gridOf 21 v41mg) (gridOf 21 v41fg))
      (fun t => t.anyReads == 1) = true := by decide +kernel

/-- V21: `CREATE` for one byte. -/
theorem test_create_one_byte :
    holdsAfter .create { State.reset with phase := 1, plen := 1 } (fun t =>
      t.version == 1 && t.level == 3 && t.size == 21 && t.mask == 0 && t.mgdim == 21 &&
      t.fgdim == 21 && t.err == 0 && t.phase == 2 && t.mg == Grid.cleared &&
      t.fg == Grid.cleared) = true := by decide +kernel

/-- V22: `CREATE` for 269 bytes. -/
theorem test_create_269_bytes :
    holdsAfter .create { State.reset with phase := 1, plen := 269 } (fun t =>
      t == { State.reset with phase := 8, err := 2, plen := 269 }) = true := by decide +kernel

/-- V10: both grids after `PATTERN`. -/
theorem test_pattern_version_1 :
    holdsAfter .pattern (symbolA 2 Grid.cleared Grid.cleared) (fun t =>
      t.phase == 3 && rowsOf 21 t.mgAt == v10mg && rowsOf 21 t.fgAt == v10fg) = true := by
  decide +kernel

/-- V23: `FGDIM` is not `SIZE`. -/
theorem test_pattern_internal_error :
    holdsAfter .pattern { symbolA 2 Grid.cleared Grid.cleared with fgdim := 25 } (fun t =>
      t.phase == 8 && t.err == 3 && t.mg == Grid.cleared && t.fg == Grid.cleared) = true := by
  decide +kernel

/-- V25: the payload "A". -/
theorem test_encode_A :
    holdsAfter .encode { symbolA 3 Grid.cleared Grid.cleared with cw := [] } (fun t =>
      t.phase == 4 && t.cw ==
        [(0, 0x40), (1, 0x14), (2, 0x10), (3, 0xEC), (4, 0x11), (5, 0xEC), (6, 0x11)]) = true := by
  decide +kernel

/-- V25: five bytes `FF`. -/
theorem test_encode_five_FF :
    holdsAfter .encode
      { symbolA 3 Grid.cleared Grid.cleared with
        cw := [], level := 2, plen := 5
        pbuf := [(0, 0xFF), (1, 0xFF), (2, 0xFF), (3, 0xFF), (4, 0xFF)] }
      (fun t => t.cw.map Prod.snd ==
        [0x40, 0x5F, 0xFF, 0xFF, 0xFF, 0xFF, 0xF0, 0xEC, 0x11, 0xEC, 0x11]) = true := by
  decide +kernel

/-- V29: `MG` after `PLACE`. -/
theorem test_place_A :
    holdsAfter .place (symbolA 4 (gridOf 21 v10mg) (gridOf 21 v10fg)) (fun t =>
      t.phase == 5 && rowsOf 21 t.mgAt == v29mg) = true := by decide +kernel

/-- V30: mask 7 is chosen, and `MG` after `MASK`. -/
theorem test_mask_A :
    holdsAfter .mask (symbolA 5 (gridOf 21 v29mg) (gridOf 21 v10fg)) (fun t =>
      t.phase == 6 && t.mask == 7 && rowsOf 21 t.mgAt == v30mg) = true := by decide +kernel

/-- V31: the predicates at `(10, 7)` and `(7, 10)`, which tell the column from the row. -/
theorem test_mask_predicates :
    (List.range 8).map (fun m => maskPred m 10 7) =
      [false, false, false, false, true, false, false, true] ∧
    (List.range 8).map (fun m => maskPred m 7 10) =
      [false, true, false, false, false, false, false, true] := by decide

/-- V41: both grids after `FORMAT`, with `MASK = 7`. -/
theorem test_format_A :
    holdsAfter .format { symbolA 6 (gridOf 21 v30mg) (gridOf 21 v10fg) with mask := 7 } (fun t =>
      t.phase == 7 && rowsOf 21 t.mgAt == v41mg && rowsOf 21 t.fgAt == v41fg) = true := by
  decide +kernel

/-- V42: with `FMT_COPY2 = literal` cell (15, 8) keeps the masked data bit 0 and stays free, as does
the cell (8, 14). -/
theorem test_format_literal :
    holdsAfter .format
      { symbolA 6 (gridOf 21 v30mg) (gridOf 21 v10fg) with
        mask := 7, config := { defaultConfig with fmtCopy2 := .literal } } (fun t =>
      !t.mgAt 15 8 && !t.fgAt 15 8 && !t.fgAt 8 14 && t.fgAt 8 15 && t.fgAt 8 13) = true := by
  decide +kernel

/-- R80: `WAIT` at `FORMAT_EMBEDDED`. -/
theorem test_wait_format_embedded :
    holdsAfter .waitFormatEmbedded (symbolA 7 Grid.cleared Grid.cleared)
      (fun t => t == symbolA 7 Grid.cleared Grid.cleared) = true := by decide +kernel

/-- R70: a reserved phase is stuck. -/
theorem test_reserved_9 : exec .reserved9 State.reset = .fault (.stuck 9#4) := rfl

/-! ## Witnesses -/

/-- A started run: the length `n` latched, the bytes of `pbuf` loaded, in epoch `e`. -/
def startedState (n : BitVec 16) (pbuf : Memory) (e : Nat) : State :=
  { State.reset with phase := Phase.started, plen := n, pbuf := pbuf, epoch := e }

/-- A failed run. -/
def failedState : State := { State.reset with phase := Phase.failed, err := 2 }

/-- What `CREATE` leaves for version `v` and level `e`, with every cell of both grids 0. -/
def createdState (v e : Nat) (n : BitVec 16) : State := State.created (startedState n [] 0) v e

theorem defaultConfig_legal : configLegal defaultConfig = true := by decide +kernel

/-- R31: a list of `ALIGN` with 4 numbers is not legal. -/
theorem test_align_of_4_numbers_is_illegal :
    configLegal { defaultConfig with align := defaultAlign.set 9 [6, 20, 34, 50] } = false := by
  decide +kernel

/-- A started run meets the invariant. -/
theorem startedState_inv (n : BitVec 16) {pbuf : Memory} (h : Memory.wf 268 pbuf) (e : Nat) :
    (startedState n pbuf e).Inv where
  config := defaultConfig_legal
  memories := ⟨h, Memory.wf_nil _, Grid.wf_unwritten, Grid.wf_unwritten⟩
  phaseLegal := by simp [startedState]
  errIffFailed := by simp [startedState, State.reset, Phase.started, Phase.failed]
  noSymbol := fun _ => ⟨rfl, rfl, rfl, rfl, rfl, rfl⟩
  idlePlen := fun hp => absurd hp (by simp [startedState, Phase.started, Phase.idle])
  symbol := fun hp => absurd hp.1 (by simp [startedState])
  maskZero := fun _ => rfl
  gridsWritten := fun hp => absurd hp.1 (by simp [startedState])
  cleared := fun hp => absurd hp (by simp [startedState, Phase.started, Phase.uninit])
  freeCellsLight := fun hp =>
    absurd hp (by simp [startedState, Phase.started, Phase.patternsPlaced, Phase.dataEncoded])
  codewords := fun hp => absurd hp.1 (by simp [startedState])

/-- A failed run meets the invariant. -/
theorem failedState_inv : failedState.Inv where
  config := defaultConfig_legal
  memories := ⟨Memory.wf_nil _, Memory.wf_nil _, Grid.wf_unwritten, Grid.wf_unwritten⟩
  phaseLegal := by simp [failedState]
  errIffFailed := by simp [failedState]
  noSymbol := fun _ => ⟨rfl, rfl, rfl, rfl, rfl, rfl⟩
  idlePlen := fun hp => absurd hp (by simp [failedState, Phase.failed, Phase.idle])
  symbol := fun hp => absurd hp.2 (by simp [failedState])
  maskZero := fun _ => rfl
  gridsWritten := fun hp => absurd hp.2 (by simp [failedState])
  cleared := fun hp => absurd hp (by simp [failedState, Phase.failed, Phase.uninit])
  freeCellsLight := fun hp =>
    absurd hp (by simp [failedState, Phase.failed, Phase.patternsPlaced, Phase.dataEncoded])
  codewords := fun hp => absurd hp.2 (by simp [failedState])

theorem witness_FormatHDecodesHighestSetBit :
    (0b1111#4).getLsbD 3 = true ∧
    ((0b0111#4).getLsbD 3 = false ∧ (0b0111#4).getLsbD 2 = true) ∧
    ((0b0011#4).getLsbD 3 = false ∧ (0b0011#4).getLsbD 2 = false ∧
      (0b0011#4).getLsbD 1 = true) := by decide

theorem witness_EncodedInstructionDecodesBack :
    Instr.wellFormed (.start 65535) = true ∧ Instr.wellFormed (.pwrite 511 0xFF) = true ∧
    Instr.wellFormed (.rdcell 63 63) = true ∧ Instr.wellFormed .reserved15 = true := by decide

theorem witness_StepRunsDecodedInstruction :
    State.reset.script = [] ∧
    ({ State.reset with script := [.seq] } : State).script = .seq :: [] ∧
    ({ State.reset with script := [lineReset] } : State).script = .host (.plain 8#4) :: [] ∧
    ({ State.reset with script := [.read 63#6 0#6] } : State).script = .read 63#6 0#6 :: [] :=
  ⟨rfl, rfl, rfl, rfl⟩

theorem witness_PlacedWordRunsNext :
    decodeTableWord 8 0b0001_1000 = some .reset ∧ decodeTableWord 4 0b1111 = some .reserved15 ∧
    decodeTableWord 8 0b0010_0000 = some (.rdcell 0 0) := by decide +kernel

theorem witness_StartLatchesLengthInIdle : 65535 < 65536 ∧ State.reset.phase = Phase.idle := by
  decide

theorem witness_PwriteWritesOneByteInIdle :
    (267 < 512 ∧ State.reset.phase = Phase.idle ∧ 267 < 268 ∧ 266 ≠ 267) ∧
    (511 < 512 ∧ (failedState.phase ≠ Phase.idle ∨ 268 ≤ 511)) ∧
    (268 < 512 ∧ (State.reset.phase ≠ Phase.idle ∨ 268 ≤ 268)) := by decide

theorem witness_RdcellShowsFinishedGridOnly :
    let s := symbolA 7 Grid.cleared Grid.cleared
    (s.size.toNat ≤ 57 ∧ s.phase = Phase.formatEmbedded ∧ 20 < s.size.toNat) ∧
    (21 < 64 ∧ s.size.toNat ≤ 21) ∧
    (State.reset.size.toNat ≤ 57 ∧ State.reset.phase ≠ Phase.formatEmbedded) := by decide +kernel

theorem witness_BusyIgnoresHostLines :
    (∃ s p rest, State.busy s = true ∧ s.script = .host p :: rest ∧ p.h.getLsbD 3 = false) ∧
    (∃ s x y rest, State.busy s = true ∧ s.script = .read x y :: rest) :=
  ⟨⟨{ State.reset with phase := 6, script := [lineClear] }, _, _, rfl, rfl, rfl⟩,
    ⟨{ State.reset with phase := 1, script := [.read 0 0] }, _, _, _, rfl, rfl⟩⟩

theorem witness_EmptyPayloadRaisesInputError : (startedState 0 [] 0).plen = 0 := rfl

/-- The smallest payload selects version 1 and level High; the lengths 268 and 269 are on the two
sides of the last capacity (V20). -/
theorem sizer_at_the_bounds :
    sizer defaultConfig 1 = some (1, 3) ∧ sizer defaultConfig 268 = some (10, 0) ∧
    sizer defaultConfig 269 = none := by decide +kernel

theorem witness_CreateTakesSmallestVersionStrongestLevel :
    (∃ (s : State) (v e c : Nat), s.plen ≠ 0 ∧ capAt? s.config v e = some c ∧
      s.plen.toNat + 3 ≤ c ∧
      ∀ v' e' c', capAt? s.config v' e' = some c' → v' < v ∨ v' = v ∧ e < e' →
        c' < s.plen.toNat + 3) ∧
    (∃ s : State, s.plen ≠ 0 ∧
      ∀ v e c, capAt? s.config v e = some c → c < s.plen.toNat + 3) := by
  obtain ⟨⟨c, hc, hle⟩, hmin⟩ := sizer_eq_some.mp sizer_at_the_bounds.2.1
  exact ⟨⟨startedState 268 [] 0, 10, 0, c, by decide, hc, hle, hmin⟩,
    ⟨startedState 269 [] 0, by decide, sizer_eq_none.mp sizer_at_the_bounds.2.2⟩⟩

theorem witness_CapacityErrorExactlyAbove271 :
    configLegal (startedState 269 [] 0).config = true ∧ (startedState 269 [] 0).plen ≠ 0 :=
  ⟨defaultConfig_legal, by decide⟩

theorem witness_DefaultSelectionForEveryLength :
    State.reset.config.cap = defaultCap ∧
    (1 ≤ (startedState 1 [] 0).plen.toNat ∧ (startedState 1 [] 0).plen.toNat ≤ 4) ∧
    (228 ≤ (startedState 268 [] 0).plen.toNat ∧ (startedState 268 [] 0).plen.toNat ≤ 268) ∧
    269 ≤ (startedState 269 [] 0).plen.toNat := ⟨rfl, by decide⟩

theorem create_startedState_1 :
    exec .create (startedState 1 [] 0) = .next (createdState 1 3 1) := by
  have h : sizer (startedState 1 [] 0).config (startedState 1 [] 0).plen.toNat = some (1, 3) :=
    sizer_at_the_bounds.1
  simp only [exec, execCreate]
  rw [if_neg (by decide), h]
  rfl

theorem witness_CreateEstablishesSymbol :
    ∃ s t : State, s.Inv ∧ s.phase = Phase.started ∧ exec .create s = .next t ∧
      t.phase = Phase.uninit :=
  ⟨_, _, startedState_inv 1 (Memory.wf_nil _) 0, rfl, create_startedState_1, rfl⟩

theorem witness_DimensionMismatchRaisesInternalError :
    ({ createdState 1 3 1 with fgdim := 25 } : State).fgdim ≠ (createdState 1 3 1).size ∧
    ({ createdState 1 3 1 with mgdim := 0 } : State).mgdim ≠ (createdState 1 3 1).size := by
  decide +kernel

/-- For `PatternDrawsFinders`, `PatternDrawsSeparators`, `PatternDrawsTimingLines`,
`PatternDrawsDefaultAlignment`, `PatternMarksExactlyItsCells`, `DefaultFunctionCellCounts` and
`FormatCellsAreFreeAfterPattern`, at the smallest and the largest version. -/
theorem witness_pattern :
    ((createdState 1 3 1).patternReady ∧ (createdState 1 3 1).config.align = defaultAlign ∧
      ∀ x < 57, ∀ y < 57, (createdState 1 3 1).fgAt x y = false) ∧
    ((createdState 10 0 1).patternReady ∧ (createdState 10 0 1).config.align = defaultAlign ∧
      ∀ x < 57, ∀ y < 57, (createdState 10 0 1).fgAt x y = false) :=
  ⟨⟨by decide +kernel, rfl, fun _ hx _ hy => Grid.read_cleared _ hx hy⟩,
    ⟨by decide +kernel, rfl, fun _ hx _ hy => Grid.read_cleared _ hx hy⟩⟩

/-- The clauses of the pattern statements at the ends of their ranges, for size 21: the corners of
the finders, the separators, the first and the last timing cell, the centre of a drawn pattern of
version 2. -/
theorem witness_pattern_clauses :
    ((21 - 7, 0) ∈ [(0, 0), (21 - 7, 0), (0, 21 - 7)] ∧ 6 < 7) ∧
    ((13 = 21 - 8 ∧ 7 ≤ 7) ∧ (21 - 7 ≤ 20 ∧ 20 < 21) ∧ (21 - 8 ≤ 13 ∧ 13 < 21)) ∧
    ((8 ≤ 8 ∧ 8 + 9 ≤ 21) ∧ (8 ≤ 12 ∧ 12 + 9 ≤ 21)) ∧
    ((18, 18) ∈ drawnTable 2 ∧ 4 < 5) := by decide

theorem version_1_draws_no_alignment (x y : Nat) : ¬(createdState 1 3 1).alignmentCell x y := by
  rintro ⟨h, _⟩
  revert h
  decide +kernel

theorem witness_PatternDrawsTimingLines_second_form :
    (createdState 1 3 1).patternReady ∧ ¬(createdState 1 3 1).alignmentCell 8 6 ∧
    ¬(createdState 1 3 1).alignmentCell 6 12 :=
  ⟨witness_pattern.1.1, version_1_draws_no_alignment 8 6, version_1_draws_no_alignment 6 12⟩

theorem witness_FormatCellsAreFreeAfterPattern_cells :
    formatCell 21 .full 8 0 ∧ formatCell 21 .full 20 8 ∧ formatCell 21 .full 8 20 ∧
    formatCell 21 .full 8 13 := by simp [formatCell]

/-- For both `ENCODE` statements: four bytes in 1-High (V25), with each clause at a bound. -/
theorem witness_encode :
    let s := createdState 1 3 4
    (capAt? s.config s.version.toNat s.level.toNat = some 7 ∧ s.plen ≠ 0 ∧ s.plen.toNat + 3 ≤ 7) ∧
    (0 < s.plen.toNat ∧ 3 < s.plen.toNat) ∧ (1 ≤ 3 ∧ 3 + 1 ≤ s.plen.toNat) ∧
    (0 + s.plen.toNat + 2 < 7) ∧ 7 ≤ 7 := by decide +kernel

/-- For `ZigzagVisitsInClosedForm` and `EveryColumnButSixVisitedOnce`. -/
theorem witness_zigzag : 7 % 2 = 1 ∧ 7 ≤ 7 ∧ 57 % 2 = 1 ∧ 7 ≤ 57 ∧ 6 < 7 ∧ 56 < 57 := by decide

theorem witness_PlaceGivesFreeCellsTheStream :
    let s := createdState 1 3 1
    (capAt? s.config s.version.toNat s.level.toNat = some 7 ∧
      s.size.toNat = 21 + 4 * (s.version.toNat - 1)) ∧
    (∃ post, visits s.size.toNat = [] ++ (20, 20) :: post ∧ s.fgAt 20 20 = false) ∧
    (6, 0) ∉ visits s.size.toNat := by
  refine ⟨by decide +kernel, ⟨(visits 21).tail, by decide +kernel, ?_⟩, by decide +kernel⟩
  exact Grid.read_cleared _ (by decide) (by decide)

theorem witness_FunctionCellsSurvivePlaceAndMask :
    ∃ s t u : State, exec .place s = .next t ∧ exec .mask t = .next u ∧ s.fgAt 56 56 = true := by
  let s : State := { createdState 10 0 1 with fg := Grid.cleared.set 56 56 true }
  have hc : capAt? s.config s.version.toNat s.level.toNat = some 271 := by decide +kernel
  have hn : s.size.toNat ≤ 57 := by decide +kernel
  exact ⟨s, _, _, execPlace_eq_next.mpr ⟨271, hc, hn, rfl⟩, execMask_eq_next.mpr ⟨hn, rfl⟩,
    Grid.read_set_same _ _ _ (by decide) (by decide)⟩

theorem witness_ApplyMaskTwiceRestores : 57 ≤ 57 ∧ 56 < 57 := by decide

theorem witness_PenaltyAtMostRowsTimesWidthLessTwo : 57 ≤ 57 := by decide

theorem witness_MaskCommitsLeastPenaltyCandidate :
    (createdState 10 0 1).size.toNat ≤ 57 ∧ 7 < 8 := by decide +kernel

/-- For both `FORMAT` statements, at the smallest and the largest size. -/
theorem witness_format :
    ((createdState 1 3 1).size.toNat = 21 ∧ (createdState 1 3 1).config.fmtCopy2 = .full) ∧
    (createdState 10 0 1).size.toNat = 57 ∧ (9 ≤ 14 ∧ 14 ≤ 14) := by decide +kernel

theorem witness_FormatLeavesOtherCells_cells : ¬formatCell 21 .full 8 6 ∧ ¬formatCell 57 .full 6 8 := by
  simp [formatCell]

theorem witness_ReservedPhasesAreStuck :
    ∃ s : State, 9 ≤ s.phase.toNat ∧ s.script = [] :=
  ⟨{ State.reset with phase := 9 }, by decide, rfl⟩

theorem witness_OnlyResetLeavesReservedPhase :
    ∃ s t : State, 9 ≤ s.phase.toNat ∧ step s = .next t :=
  ⟨{ State.reset with phase := 9, script := [lineClear] }, _, by decide, rfl⟩

theorem witness_VersionOutOfRangeIsRefused :
    State.reset.version = 0 ∧
    ∃ s : State, 11 ≤ s.version.toNat ∧ s.version ≠ 0 ∧ s.mgdim = s.size ∧ s.fgdim = s.size :=
  ⟨rfl, { State.reset with version := 11 }, by decide, by decide, rfl, rfl⟩

/-- For `StepKeepsInvariant` and `InvariantStateAlwaysSteps`. -/
theorem witness_invariant : ∃ s t : State, s.Inv ∧ step s = .next t :=
  ⟨_, _, startedState_inv 0 (Memory.wf_nil _) 0, rfl⟩

theorem witness_PhaseMovesOneForwardOrFails :
    (∃ s t : State, step s = .next t ∧ s.fetch.1 = .formatS s.phase ∧ s.busy = true) ∧
    (∃ s t : State, step s = .next t ∧ s.fetch.1 = .formatS s.phase ∧ s.busy = false) ∧
    (∃ (s t : State) (p : HostPorts), step s = .next t ∧ s.fetch.1 = .formatH p) ∧
    (∃ (s t : State) (x y : BitVec 6), step s = .next t ∧ s.fetch.1 = .readPort x y) :=
  ⟨⟨startedState 0 [] 0, _, rfl, rfl, rfl⟩, ⟨State.reset, _, rfl, rfl, rfl⟩,
    ⟨{ State.reset with script := [lineStart 1] }, _, _, rfl, rfl⟩,
    ⟨{ State.reset with script := [.read 0 0] }, _, _, _, rfl, rfl⟩⟩

theorem witness_ErrorStaysUntilHostClears :
    ∃ s t : State, s.Inv ∧ s.err ≠ 0 ∧ step s = .next t ∧ decode s.fetch.1 ≠ .clear ∧
      decode s.fetch.1 ≠ .reset :=
  ⟨failedState, failedState, failedState_inv, by decide, rfl, by decide, by decide⟩

theorem witness_PayloadIsStableOutsideIdle :
    ∃ s t : State, s.phase ≠ Phase.idle ∧ step s = .next t ∧ decode s.fetch.1 ≠ .reset ∧
      decode s.fetch.1 ≠ .clear :=
  ⟨{ failedState with script := [linePwrite 0 0x42] }, _, by decide, rfl, by decide, by decide⟩

theorem witness_FunctionMarkStaysUntilCreate :
    ∃ s t : State, step s = .next t ∧ decode s.fetch.1 ≠ .create ∧ decode s.fetch.1 ≠ .reset ∧
      s.fgAt 56 56 = true :=
  ⟨{ State.reset with fg := Grid.cleared.set 56 56 true }, _, rfl, by decide, by decide,
    Grid.read_set_same _ _ _ (by decide) (by decide)⟩

theorem witness_RunEndsInSixStepsOrFailsInOne :
    (∀ n e, (startedState n [] e).Inv ∧ (startedState n [] e).phase = Phase.started ∧
      (startedState n [] e).script = []) ∧
    (1 ≤ (startedState 1 [] 0).plen.toNat ∧ (startedState 268 [] 0).plen.toNat ≤ 268) ∧
    (startedState 0 [] 0).plen = 0 ∧ 269 ≤ (startedState 269 [] 0).plen.toNat :=
  ⟨fun n e => ⟨startedState_inv n (Memory.wf_nil _) e, rfl, rfl⟩, by decide, rfl, by decide⟩

/-- Two runs of one payload in different epochs, with another byte beyond the payload. -/
theorem witness_RunDependsOnPayloadAlone :
    ∃ s s' : State, s.Inv ∧ s'.Inv ∧ s.phase = Phase.started ∧ s'.phase = Phase.started ∧
      s.script = [] ∧ s'.script = [] ∧ s.config = s'.config ∧ s.plen = s'.plen ∧
      (∀ a < s.plen.toNat, s.pbufAt a = s'.pbufAt a) ∧ s.pbuf ≠ s'.pbuf := by
  refine ⟨startedState 1 [(0, 0x41)] 0, startedState 1 [(0, 0x41), (1, 0x42)] 1,
    startedState_inv 1 (by decide) 0, startedState_inv 1 (by decide) 1,
    rfl, rfl, rfl, rfl, rfl, rfl, ?_, by decide⟩
  intro a ha
  have h0 : a = 0 := Nat.lt_one_iff.mp ha
  subst h0
  rfl

end Sys2Proof.Tests
end

/-! ## The output flags as functions of the phase (R22) -/

namespace Sys2Proof.Machine

@[simp] theorem State.outputs_busy (s : State) : s.outputs.busy = s.busy := rfl
@[simp] theorem State.outputs_done (s : State) : s.outputs.done = s.done := rfl
@[simp] theorem State.outputs_failed (s : State) : s.outputs.failed = s.failed := rfl

theorem State.busy_iff (s : State) :
    s.busy = true ↔ s.phase = Phase.started ∨ s.phase = Phase.uninit ∨
      s.phase = Phase.patternsPlaced ∨ s.phase = Phase.dataEncoded ∨
      s.phase = Phase.dataPlaced ∨ s.phase = Phase.masked := by
  simp only [State.busy, Bool.or_eq_true, beq_iff_eq, or_assoc]

theorem State.done_iff (s : State) : s.done = true ↔ s.phase = Phase.formatEmbedded :=
  beq_iff_eq

theorem State.failed_iff (s : State) : s.failed = true ↔ s.phase = Phase.failed :=
  beq_iff_eq

/-- Settles O16: each output port shows its flag, and each flag is a test on the phase. -/
theorem flagsAreFunctionsOfPhase : Obligations.FlagsAreFunctionsOfPhase := by
  intro s
  rw [State.outputs_busy, State.outputs_done, State.outputs_failed]
  exact ⟨s.busy_iff, s.done_iff, s.failed_iff⟩

end Sys2Proof.Machine

/-! ## Priority of the host strobes in format H (R56) -/

namespace Sys2Proof

theorem decodeH_of_rst {p : HostPorts} (h3 : p.h.getLsbD 3 = true) : decodeH p = .reset :=
  if_pos h3

theorem decodeH_of_clear {p : HostPorts} (h3 : p.h.getLsbD 3 = false)
    (h2 : p.h.getLsbD 2 = true) : decodeH p = .clear := by
  rw [decodeH, if_neg (ne_true_of_eq_false h3), if_pos h2]

theorem decodeH_of_start {p : HostPorts} (h3 : p.h.getLsbD 3 = false)
    (h2 : p.h.getLsbD 2 = false) (h1 : p.h.getLsbD 1 = true) :
    decodeH p = .start p.plen.toNat := by
  rw [decodeH, if_neg (ne_true_of_eq_false h3), if_neg (ne_true_of_eq_false h2), if_pos h1]

theorem decodeH_of_pw_en {p : HostPorts} (h : p.h = 0b0001#4) :
    decodeH p = .pwrite p.pwAddr.toNat p.pwData := by
  simp [decodeH, h]

theorem decodeH_of_no_strobe {p : HostPorts} (h : p.h = 0b0000#4) : decodeH p = .noph := by
  simp [decodeH, h]

/-- Settles O1: one clause per row of R56, in the order of priority. -/
theorem formatHDecodesHighestSetBit : Obligations.FormatHDecodesHighestSetBit := fun _ =>
  ⟨decodeH_of_rst, decodeH_of_clear, decodeH_of_start, decodeH_of_pw_en, decodeH_of_no_strobe⟩

end Sys2Proof

/-! ## The reserved phases have no sequencer step (R70) -/

namespace Sys2Proof.Machine

/-- The phase codes that R57 leaves without a name. -/
theorem reserved_phase_cases {phase : Nibble} (h : 9 ≤ phase.toNat) :
    phase = 9#4 ∨ phase = 10#4 ∨ phase = 11#4 ∨ phase = 12#4 ∨ phase = 13#4 ∨ phase = 14#4 ∨
      phase = 15#4 := by
  bv_omega

theorem exec_reserved_rows (s : State) :
    exec .reserved9 s = stuckAt 9#4 ∧ exec .reserved10 s = stuckAt 10#4 ∧
    exec .reserved11 s = stuckAt 11#4 ∧ exec .reserved12 s = stuckAt 12#4 ∧
    exec .reserved13 s = stuckAt 13#4 ∧ exec .reserved14 s = stuckAt 14#4 ∧
    exec .reserved15 s = stuckAt 15#4 :=
  ⟨rfl, rfl, rfl, rfl, rfl, rfl, rfl⟩

/-- What the sequencer decodes from a reserved phase is stuck at that same phase. -/
theorem exec_decodeS_of_reserved {phase : Nibble} (h : 9 ≤ phase.toNat) (s : State) :
    exec (decodeS phase) s = stuckAt phase := by
  obtain ⟨h9, h10, h11, h12, h13, h14, h15⟩ := exec_reserved_rows s
  obtain rfl | rfl | rfl | rfl | rfl | rfl | rfl := reserved_phase_cases h
  exacts [h9, h10, h11, h12, h13, h14, h15]

theorem step_of_reserved_phase {s : State} (hp : 9 ≤ s.phase.toNat) (hs : s.script = []) :
    step s = stuckAt s.phase := by
  rw [step, State.fetch_nil hs]
  exact exec_decodeS_of_reserved hp s

/-- Settles O44: the seven rows by their meaning, the step because it decodes one of them. -/
theorem reservedPhasesAreStuck : Obligations.ReservedPhasesAreStuck := fun s =>
  ⟨exec_reserved_rows s, step_of_reserved_phase⟩

end Sys2Proof.Machine

/-! ## What the host events do, by the phase that accepts them (R73, R75 to R78) -/

namespace Sys2Proof.Machine

theorem State.acceptsPayload_iff (s : State) : s.acceptsPayload = true ↔ s.phase = Phase.idle :=
  beq_iff_eq

theorem State.acceptsClear_iff (s : State) :
    s.acceptsClear = true ↔
      s.phase = Phase.idle ∨ s.phase = Phase.formatEmbedded ∨ s.phase = Phase.failed := by
  simp only [State.acceptsClear, Bool.or_eq_true, beq_iff_eq, or_assoc]

theorem pwAddrInRange_iff (a : Nat) : pwAddrInRange a = true ↔ a < 268 := decide_eq_true_iff

/-! Each event as a choice between its update and the same state, the guard in the spec's words. -/

theorem exec_clear (s : State) :
    exec .clear s = .next
      (if s.phase = Phase.idle ∨ s.phase = Phase.formatEmbedded ∨ s.phase = Phase.failed then
        s.clearRegisters
      else s) := by
  simp only [exec, execClear, s.acceptsClear_iff, apply_ite Host.Outcome.next]

theorem exec_start (n : Nat) (s : State) :
    exec (.start n) s = .next
      (if s.phase = Phase.idle then { s with plen := plenPort n, phase := Phase.started }
      else s) := by
  simp only [exec, execStart, s.acceptsPayload_iff, apply_ite Host.Outcome.next]

theorem exec_pwrite (a : Nat) (d : Byte) (s : State) :
    exec (.pwrite a d) s = .next
      (if s.phase = Phase.idle ∧ a < 268 then { s with pbuf := Memory.write s.pbuf a d }
      else s) := by
  simp only [exec, execPwrite, Bool.and_eq_true, s.acceptsPayload_iff, pwAddrInRange_iff,
    apply_ite Host.Outcome.next]

theorem exec_noph (s : State) : exec .noph s = .next s := rfl

/-! The payload buffer after one byte write (R32). -/

theorem State.pbufAt_write_same (s : State) (a : Nat) (d : Byte) :
    State.pbufAt { s with pbuf := Memory.write s.pbuf a d } a = d := by
  simp only [State.pbufAt, Memory.find_write_same, Option.getD_some]

theorem State.pbufAt_write_other (s : State) {a b : Nat} (d : Byte) (h : b ≠ a) :
    State.pbufAt { s with pbuf := Memory.write s.pbuf a d } b = s.pbufAt b := by
  simp only [State.pbufAt, Memory.find_write_other s.pbuf d h.symm]

/-- Settles O10: the registers R75 lists are those `clearRegisters` zeroes. -/
theorem clearReturnsRegistersToIdle : Obligations.ClearReturnsRegistersToIdle := exec_clear

/-- Settles O11: `plenPort` presents the 16 bits of `n`. -/
theorem startLatchesLengthInIdle : Obligations.StartLatchesLengthInIdle := fun s n _ =>
  exec_start n s

/-- Settles O12: read after write at `a` and at every other address where the write is accepted;
the guard fails elsewhere. -/
theorem pwriteWritesOneByteInIdle : Obligations.PwriteWritesOneByteInIdle := by
  intro s a d _
  rw [exec_pwrite]
  constructor
  · intro hidle ha
    rw [if_pos ⟨hidle, ha⟩]
    exact ⟨_, rfl, rfl, s.pbufAt_write_same a d, fun _ hb => s.pbufAt_write_other d hb⟩
  · intro hout
    have hguard : ¬(s.phase = Phase.idle ∧ a < 268) :=
      not_and_or.mpr (hout.imp_right Nat.not_lt.mpr)
    rw [if_neg hguard]

/-- Settles O13: no case to split, `NOPH` has one outcome. -/
theorem nophChangesNothing : Obligations.NophChangesNothing := exec_noph

end Sys2Proof.Machine

/-! ## `CREATE`: one equation per outcome, and what the created symbol holds (R84, R85, R87, R88) -/

namespace Sys2Proof.Machine

theorem exec_create_of_plen_zero {s : State} (h0 : s.plen = 0) :
    exec .create s = .next (s.raise .input) := if_pos h0

theorem exec_create_of_sizer_none {s : State} (h0 : s.plen ≠ 0)
    (hs : sizer s.config s.plen.toNat = none) :
    exec .create s = .next (s.raise .capacity) := by
  rw [exec, execCreate, if_neg h0, hs]

theorem exec_create_of_sizer_some {s : State} {v e : Nat} (h0 : s.plen ≠ 0)
    (hs : sizer s.config s.plen.toNat = some (v, e)) :
    exec .create s = .next (s.created v e) := by
  rw [exec, execCreate, if_neg h0, hs]
  rfl

/-! The versions, levels and sizes that exist fit their registers (R23, R87). -/

theorem State.created_version_toNat (s : State) {v : Nat} (e : Nat) (hv : 1 ≤ v ∧ v ≤ 10) :
    (s.created v e).version.toNat = v :=
  (BitVec.toNat_ofNat v 4).trans (Nat.mod_eq_of_lt (by omega))

theorem State.created_level_toNat (s : State) (v : Nat) {e : Nat} (he : e < 4) :
    (s.created v e).level.toNat = e :=
  (BitVec.toNat_ofNat e 2).trans (Nat.mod_eq_of_lt he)

theorem State.created_size_toNat (s : State) {v : Nat} (e : Nat) (hv : 1 ≤ v ∧ v ≤ 10) :
    (s.created v e).size.toNat = sizeOfVersion v := by
  obtain ⟨_, hle, _⟩ := sizeOfVersion_bounds hv
  exact (BitVec.toNat_ofNat (sizeOfVersion v) 6).trans (Nat.mod_eq_of_lt (by omega))

theorem State.created_mgAt (s : State) (v e : Nat) {x y : Nat} (hx : x < 57) (hy : y < 57) :
    (s.created v e).mgAt x y = false := Grid.read_cleared _ hx hy

theorem State.created_fgAt (s : State) (v e : Nat) {x y : Nat} (hx : x < 57) (hy : y < 57) :
    (s.created v e).fgAt x y = false := Grid.read_cleared _ hx hy

/-- Settles O17: the empty payload is tested before any table is read. -/
theorem emptyPayloadRaisesInputError : Obligations.EmptyPayloadRaisesInputError := fun _ =>
  exec_create_of_plen_zero

/-- Settles O18: the hypotheses on the capacities say what the sizer answers. -/
theorem createTakesSmallestVersionStrongestLevel :
    Obligations.CreateTakesSmallestVersionStrongestLevel := by
  intro s h0
  constructor
  · intro v e c hc hfit hmin
    obtain ⟨hv, he, _⟩ := capAt?_eq_some hc
    have hs : sizer s.config s.plen.toNat = some (v, e) :=
      sizer_eq_some.mpr ⟨⟨c, hc, hfit⟩, hmin⟩
    exact ⟨s.created v e, exec_create_of_sizer_some h0 hs, rfl, s.created_version_toNat e hv,
      s.created_level_toNat v he, s.created_size_toNat e hv,
      fun x hx y hy => ⟨s.created_mgAt v e hx hy, s.created_fgAt v e hx hy⟩⟩
  · intro hnone
    exact exec_create_of_sizer_none h0 (sizer_eq_none.mpr hnone)

end Sys2Proof.Machine

/-! ## `PATTERN`: the outcomes, and which writes reach the finder corners (R91 to R100) -/

namespace Sys2Proof.Machine

theorem exec_pattern_of_dim_ne {s : State} (h : s.mgdim ≠ s.size ∨ s.fgdim ≠ s.size) :
    exec .pattern s = .next (s.raise .internal) := if_pos h

/-- The state after the pattern writes. -/
def State.patterned (s : State) : State :=
  { s.setfAll s.patternWrites with phase := Phase.patternsPlaced }

theorem State.patternReady.writes_inWindow {s : State} (h : s.patternReady) :
    s.patternWrites.all (CellWrite.inWindow s.size.toNat) = true := by
  obtain ⟨hc, hv, hn, hm, hf⟩ := h
  exact (execPattern_draws hc hv hn hm hf).2

theorem State.patternReady.exec_pattern {s : State} (h : s.patternReady) :
    exec .pattern s = .next s.patterned := by
  obtain ⟨hc, hv, hn, hm, hf⟩ := h
  exact (execPattern_draws hc hv hn hm hf).1

theorem State.patternReady.size_bounds {s : State} (h : s.patternReady) :
    21 ≤ s.size.toNat ∧ s.size.toNat ≤ 57 := by
  obtain ⟨_, hv, hn, _, _⟩ := h
  omega

/-- A cell that some pattern writes, and to which every pattern gives the same bit. -/
theorem State.patternReady.patterned_cell {s : State} (h : s.patternReady) {x y : Nat} {b : Bool}
    (hx : x < 57) (hex : ∃ w ∈ s.patternWrites, w.x = x ∧ w.y = y)
    (hall : ∀ w ∈ s.patternWrites, w.x = x → w.y = y → w.bit = b) :
    s.patterned.fgAt x y = true ∧ s.patterned.mgAt x y = b := by
  have hfg := s.setfAll_fgAt h.writes_inWindow (y := y) hx
  have hmg := s.setfAll_mgAt h.writes_inWindow (y := y) hx
  rw [decide_eq_true hex, Bool.true_or] at hfg
  rw [lastWrite_eq_of_all hall hex, Option.getD_some] at hmg
  exact ⟨hfg, hmg⟩

/-- The writes in the three finder corners: finder patterns and separators (R96, R97). -/
def cornerWrites (n : Nat) : List CellWrite := finders n ++ separators n

theorem basePatterns_eq (n : Nat) : basePatterns n = cornerWrites n ++ timing n := rfl

theorem cornerWrites_subset_patternWrites (s : State) :
    cornerWrites s.size.toNat ⊆ s.patternWrites := by
  have hbase : cornerWrites s.size.toNat ⊆ basePatterns s.size.toNat :=
    List.subset_append_left _ _
  unfold State.patternWrites
  split
  · exact List.subset_append_of_subset_left _ hbase
  · exact hbase

/-- A pattern write belongs to a pattern of every version or to an alignment pattern. -/
theorem mem_patternWrites {s : State} {w : CellWrite} (h : w ∈ s.patternWrites) :
    w ∈ basePatterns s.size.toNat ∨ ∃ l, w ∈ alignment s.size.toNat l := by
  unfold State.patternWrites at h
  split at h
  · exact (List.mem_append.mp h).imp_right fun h => ⟨_, h⟩
  · exact .inl h

theorem alignSkipped_iff {n cx cy : Nat} :
    alignSkipped n cx cy = true ↔
      (cx < 10 ∧ cy < 10) ∨ (n ≤ cx + 10 ∧ cy < 10) ∨ (cx < 10 ∧ n ≤ cy + 10) := by
  simp [alignSkipped, or_assoc]

/-- Every alignment write is within 2 of a centre that is not near a finder corner (R99, R100). -/
theorem exists_centre_of_mem_alignment {n : Nat} {l : List Nat} {w : CellWrite}
    (h : w ∈ alignment n l) :
    ∃ cx cy : Nat,
      ¬((cx < 10 ∧ cy < 10) ∨ (n ≤ cx + 10 ∧ cy < 10) ∨ (cx < 10 ∧ n ≤ cy + 10)) ∧
      (cx - 2 ≤ w.x ∧ w.x ≤ cx + 2) ∧ (cy - 2 ≤ w.y ∧ w.y ≤ cy + 2) := by
  obtain ⟨c, hc, hw⟩ := List.mem_flatMap.mp h
  obtain ⟨j, hj, i, hi, rfl⟩ := mem_drawAlign.mp hw
  have hskip : ¬alignSkipped n c.1 c.2 = true := by
    simpa using (List.mem_filter.mp hc).2
  rw [alignSkipped_iff] at hskip
  exact ⟨c.1, c.2, hskip, by simp only; omega, by simp only; omega⟩

theorem alignment_avoids_finderCorner {n x y : Nat} {l : List Nat} {w : CellWrite}
    (hw : w ∈ alignment n l) (hx : w.x = x) (hy : w.y = y) : ¬finderCorner n x y := by
  obtain ⟨cx, cy, hskip, hcx, hcy⟩ := exists_centre_of_mem_alignment hw
  unfold finderCorner
  omega

theorem timing_avoids_finderCorner {n x y : Nat} {w : CellWrite}
    (hw : w ∈ timing n) (hx : w.x = x) (hy : w.y = y) : ¬finderCorner n x y := by
  unfold finderCorner
  obtain ⟨i, hi, rfl | rfl⟩ := mem_timing.mp hw <;> simp only at hx hy <;> omega

/-- In a finder corner only the finder patterns and the separators are drawn. -/
theorem mem_cornerWrites_of_finderCorner {s : State} {x y : Nat} {w : CellWrite}
    (hw : w ∈ s.patternWrites) (hx : w.x = x) (hy : w.y = y)
    (hc : finderCorner s.size.toNat x y) : w ∈ cornerWrites s.size.toNat := by
  rcases mem_patternWrites hw with hbase | ⟨l, hal⟩
  · rw [basePatterns_eq] at hbase
    rcases List.mem_append.mp hbase with hcorner | htiming
    · exact hcorner
    · exact absurd hc (timing_avoids_finderCorner htiming hx hy)
  · exact absurd hc (alignment_avoids_finderCorner hal hx hy)

/-! ## The finder patterns and their separators (R94 to R97) -/

theorem finderBit_eq_false {dx dy : Nat} :
    finderBit dx dy = false ↔ max ((dx : Int) - 3).natAbs ((dy : Int) - 3).natAbs = 2 :=
  bne_eq_false_iff_eq

/-- Cell `(x, y)` is in the 7×7 square of a finder pattern, for a grid of side `n` (R95). -/
abbrev finderSquare (n x y : Nat) : Prop :=
  (x < 7 ∧ y < 7) ∨ ((n ≤ x + 7 ∧ x < n) ∧ y < 7) ∨ (x < 7 ∧ (n ≤ y + 7 ∧ y < n))

/-- A separator cell of the three finder patterns, for a grid of side `n`: the rest of the corners
(R97). -/
abbrev separatorCell (n x y : Nat) : Prop := finderCorner n x y ∧ ¬finderSquare n x y

theorem finders_inside_finderSquare {n x y : Nat} (hn : 21 ≤ n) {w : CellWrite}
    (hw : w ∈ finders n) (hx : w.x = x) (hy : w.y = y) : finderSquare n x y := by
  obtain ⟨o, ho, dy, hdy, dx, hdx, rfl⟩ := mem_finders.mp hw
  rcases mem_finderOrigins.mp ho with rfl | rfl | rfl <;> simp only at hx hy <;> omega

theorem separators_avoid_finderSquare {n x y : Nat} (hn : 21 ≤ n) {w : CellWrite}
    (hw : w ∈ separators n) (hx : w.x = x) (hy : w.y = y) : ¬finderSquare n x y := by
  obtain ⟨_, _, o, ho, hring⟩ := mem_separators.mp hw
  rcases mem_finderOrigins.mp ho with rfl | rfl | rfl <;> simp only at hring <;> omega

/-- Two finder writes to one cell are of the same finder pattern, at the same offsets. -/
theorem finders_agree {n : Nat} (hn : 21 ≤ n) {w w' : CellWrite} (hw : w ∈ finders n)
    (hw' : w' ∈ finders n) (hx : w'.x = w.x) (hy : w'.y = w.y) : w'.bit = w.bit := by
  obtain ⟨o, ho, dy, hdy, dx, hdx, rfl⟩ := mem_finders.mp hw
  obtain ⟨o', ho', dy', hdy', dx', hdx', rfl⟩ := mem_finders.mp hw'
  have hoff : dx' = dx ∧ dy' = dy := by
    rw [mem_finderOrigins] at ho ho'
    rcases ho with rfl | rfl | rfl <;> rcases ho' with rfl | rfl | rfl <;>
      simp only at hx hy <;> omega
  rw [hoff.1, hoff.2]

/-- Two writes to one cell of a finder corner give it the same bit: the squares and the rings are
disjoint, and all rings are light. -/
theorem cornerWrites_agree {n : Nat} (hn : 21 ≤ n) {w w' : CellWrite} {x y : Nat}
    (hw : w ∈ cornerWrites n) (hw' : w' ∈ cornerWrites n) (hx : w.x = x) (hy : w.y = y)
    (hx' : w'.x = x) (hy' : w'.y = y) : w'.bit = w.bit := by
  rcases List.mem_append.mp hw with hf | hs <;> rcases List.mem_append.mp hw' with hf' | hs'
  · exact finders_agree hn hf hf' (hx'.trans hx.symm) (hy'.trans hy.symm)
  · exact absurd (finders_inside_finderSquare hn hf hx hy)
      (separators_avoid_finderSquare hn hs' hx' hy')
  · exact absurd (finders_inside_finderSquare hn hf' hx' hy')
      (separators_avoid_finderSquare hn hs hx hy)
  · rw [(mem_separators.mp hs).1, (mem_separators.mp hs').1]

theorem cornerWrites_inside_finderCorner {n x y : Nat} (hn : 21 ≤ n) {w : CellWrite}
    (hw : w ∈ cornerWrites n) (hx : w.x = x) (hy : w.y = y) : finderCorner n x y := by
  rcases List.mem_append.mp hw with hf | hs
  · have hsq := finders_inside_finderSquare hn hf hx hy
    omega
  · obtain ⟨_, hgrid, o, ho, hring⟩ := mem_separators.mp hs
    rcases mem_finderOrigins.mp ho with rfl | rfl | rfl <;> simp only at hring <;> omega

/-- A write of a finder pattern or a separator is what `PATTERN` leaves in its cell. -/
theorem State.patternReady.patterned_corner {s : State} (h : s.patternReady) {w : CellWrite}
    (hw : w ∈ cornerWrites s.size.toNat) {x y : Nat} (hx : w.x = x) (hy : w.y = y) :
    s.patterned.fgAt x y = true ∧ s.patterned.mgAt x y = w.bit := by
  obtain ⟨hlo, hhi⟩ := h.size_bounds
  have hc := cornerWrites_inside_finderCorner hlo hw hx hy
  refine h.patterned_cell (by omega) ⟨w, cornerWrites_subset_patternWrites s hw, hx, hy⟩ ?_
  intro w' hw' hx' hy'
  exact cornerWrites_agree hlo hw (mem_cornerWrites_of_finderCorner hw' hx' hy' hc) hx hy hx' hy'

/-- The ring of each origin, clipped to the grid, holds every separator cell. -/
theorem separatorCell_mem_separators {n x y : Nat} (h : separatorCell n x y) (hn : 21 ≤ n) :
    (⟨x, y, false⟩ : CellWrite) ∈ separators n := by
  obtain ⟨hc, hs⟩ := h
  refine mem_separators.mpr ⟨rfl, by simp only; omega, ?_⟩
  rcases hc with hc | hc | hc
  · exact ⟨(0, 0), by simp [finderOrigins], by simp only; omega⟩
  · exact ⟨((n : Int) - 7, 0), by simp [finderOrigins], by simp only; omega⟩
  · exact ⟨(0, (n : Int) - 7), by simp [finderOrigins], by simp only; omega⟩

/-- Settles O22: the grid check is the first branch of the operation. -/
theorem dimensionMismatchRaisesInternalError : Obligations.DimensionMismatchRaisesInternalError :=
  fun _ => exec_pattern_of_dim_ne

/-- Settles O23: the template bit is a corner write, and no other write reaches its cell with
another bit. -/
theorem patternDrawsFinders : Obligations.PatternDrawsFinders := by
  intro s h
  refine ⟨s.patterned, h.exec_pattern, fun ox oy ho dx hdx dy hdy => ?_⟩
  have horigin : ((ox : Int), (oy : Int)) ∈ finderOrigins s.size.toNat := by
    have hlo := h.size_bounds.1
    simp only [List.mem_cons, Prod.mk.injEq, List.not_mem_nil, or_false] at ho
    simp only [mem_finderOrigins, Prod.mk.injEq]
    omega
  have hw := mem_finders.mpr ⟨_, horigin, dy, hdy, dx, hdx, rfl⟩
  obtain ⟨hfg, hmg⟩ := h.patterned_corner (List.mem_append_left _ hw) (Nat.cast_add ox dx).symm
    (Nat.cast_add oy dy).symm
  exact ⟨hfg, by rw [hmg, finderBit_eq_false]⟩

/-- Settles O24: the cells named are those of the corners outside the finder squares. -/
theorem patternDrawsSeparators : Obligations.PatternDrawsSeparators := by
  intro s h
  refine ⟨s.patterned, h.exec_pattern, fun x y hxy => ?_⟩
  have hlo := h.size_bounds.1
  have hsep : separatorCell s.size.toNat x y := by omega
  exact h.patterned_corner (List.mem_append_right _ (separatorCell_mem_separators hsep hlo)) rfl rfl

end Sys2Proof.Machine

/-! ## `ENCODE`: the stream bits that `CW` holds (R64, R65, R102 to R106) -/

namespace Sys2Proof.Machine

theorem numberOfBits_concat (bits : List Bool) (b : Bool) :
    numberOfBits (bits ++ [b]) = 2 * numberOfBits bits + b.toNat := by
  simp [numberOfBits]

/-- The bits of the number are those listed, the last listed as bit 0. -/
theorem getElem?_eq_testBit_numberOfBits {bits : List Bool} {r : Nat} (hr : r < bits.length) :
    bits[r]? = some ((numberOfBits bits).testBit (bits.length - 1 - r)) := by
  induction bits using List.reverseRecOn with
  | nil => simp at hr
  | append_singleton bits b ih =>
    rw [numberOfBits_concat, List.length_append, List.length_singleton, Nat.add_sub_cancel]
    by_cases hlast : r < bits.length
    · have hbit : bits.length - r = bits.length - 1 - r + 1 := by omega
      have hhalf : (2 * numberOfBits bits + b.toNat) / 2 = numberOfBits bits := by
        have := b.toNat_lt; omega
      rw [List.getElem?_append_left hlast, ih hlast, hbit, Nat.testBit_add_one, hhalf]
    · have hr : r = bits.length := by simp at hr; omega
      subst hr
      cases b <;> simp [Nat.testBit_zero]

/-- The first of eight stream bits is bit 7 of the byte they make (R65). -/
theorem getElem?_eq_getLsbD_byteOfBits {bits : List Bool} (h8 : bits.length = 8) {r : Nat}
    (hr : r < 8) : bits[r]? = some ((byteOfBits bits).getLsbD (7 - r)) := by
  rw [getElem?_eq_testBit_numberOfBits (h8 ▸ hr), byteOfBits, BitVec.getLsbD_ofNat, h8]
  simp; omega

/-- The state after the bitstream of a capacity of `c` bytes is packed. -/
def State.encoded (s : State) (c : Nat) : State :=
  { s with
    cw := Memory.writeFrom s.cw 0 (packBytes (bitstream s.payload c) c)
    phase := Phase.dataEncoded }

/-- No capacity exceeds 271, so a payload that fits is within the depth of `PBUF` (R103). -/
theorem exec_encode_of_fits {s : State} {c : Nat}
    (hc : capAt? s.config s.version.toNat s.level.toNat = some c) (hfit : s.plen.toNat + 3 ≤ c) :
    exec .encode s = .next (s.encoded c) := by
  have hcap : c ≤ 271 := (capAt?_eq_some hc).2.2
  exact execEncode_eq_next.mpr ⟨c, hc, by omega, rfl⟩

theorem State.encoded_cwAt (s : State) {c j : Nat} (hj : j < c) :
    (s.encoded c).cwAt j = byteOfBits (((bitstream s.payload c).drop (8 * j)).take 8) := by
  rw [State.cwAt, State.encoded, Memory.find_writeFrom, length_packBytes, if_pos (by omega),
    Nat.sub_zero, getElem?_packBytes _ hj, Option.getD_some]

/-- `CW` holds the bitstream bit for bit (R64). -/
theorem State.getElem?_bitstream {s : State} {c k : Nat} (hfit : s.plen.toNat + 3 ≤ c)
    (hk : k < 8 * c) :
    (bitstream s.payload c)[k]? = some (streamBit (s.encoded c).cwAt k) := by
  have hlen : (bitstream s.payload c).length = 8 * c :=
    length_bitstream_of_fits (by rwa [s.length_payload])
  have hmod : k % 8 < 8 := Nat.mod_lt _ (by decide)
  rw [streamBit, s.encoded_cwAt (by omega),
    ← getElem?_eq_getLsbD_byteOfBits (by simp [hlen]; omega) hmod,
    List.getElem?_take_of_lt hmod, List.getElem?_drop, Nat.div_add_mod]

theorem getElem?_byteBits (b : Byte) {j : Nat} (hj : j < 8) :
    (byteBits b)[j]? = some (b.getLsbD (7 - j)) := getElem?_msbFirst hj

theorem getElem?_flatMap_byteBits {l : List Byte} {i j : Nat} {b : Byte} (hi : l[i]? = some b)
    (hj : j < 8) : (l.flatMap byteBits)[8 * i + j]? = some (b.getLsbD (7 - j)) := by
  induction l generalizing i with
  | nil => simp at hi
  | cons a l ih =>
    rw [List.flatMap_cons]
    cases i with
    | zero =>
      obtain rfl : a = b := by simpa using hi
      rw [List.getElem?_append_left (by simp; omega), Nat.mul_zero, Nat.zero_add,
        getElem?_byteBits a hj]
    | succ i =>
      rw [List.getElem?_append_right (by simp; omega), length_byteBits,
        show 8 * (i + 1) + j - 8 = 8 * i + j by omega, ih (by simpa using hi)]

/-! The three parts of the head, by position in the stream (R104 to R106). -/

theorem getElem?_streamHead_mode (p : List Byte) {j : Nat} (hj : j < 4) :
    (streamHead p)[j]? = some ((0b0100).testBit (3 - j)) := by
  rw [streamHead, List.append_assoc, List.getElem?_append_left (by simpa), getElem?_msbFirst hj]

theorem getElem?_streamHead_length (p : List Byte) {j : Nat} (hj : j < 8) :
    (streamHead p)[4 + j]? = some ((p.length % 256).testBit (7 - j)) := by
  rw [streamHead, List.append_assoc, List.getElem?_append_right (by simp), length_msbFirst,
    Nat.add_sub_cancel_left, List.getElem?_append_left (by simpa), getElem?_msbFirst hj]

theorem getElem?_streamHead_payload {p : List Byte} {i j : Nat} {b : Byte} (hi : p[i]? = some b)
    (hj : j < 8) : (streamHead p)[12 + 8 * i + j]? = some (b.getLsbD (7 - j)) := by
  rw [streamHead, List.getElem?_append_right (by simp; omega), List.length_append, length_msbFirst,
    length_msbFirst, show 12 + 8 * i + j - (4 + 8) = 8 * i + j by omega,
    getElem?_flatMap_byteBits hi hj]

/-- The head is the first part of the stream, so `CW` holds its bits. -/
theorem State.streamBit_encoded_of_streamHead {s : State} {c k : Nat} {b : Bool}
    (hfit : s.plen.toNat + 3 ≤ c) (hk : (streamHead s.payload)[k]? = some b) :
    streamBit (s.encoded c).cwAt k = b := by
  obtain ⟨hlt, -⟩ := List.getElem?_eq_some_iff.mp hk
  have hbound : k < 12 + 8 * s.plen.toNat := by simpa using hlt
  have hstream : (bitstream s.payload c)[k]? = some b := by
    rw [bitstream_of_fits (by rwa [s.length_payload]), List.append_assoc,
      List.getElem?_append_left hlt, hk]
  rw [getElem?_bitstream hfit (by omega)] at hstream
  exact Option.some.inj hstream

/-- Settles O30: each bit named is a bit of the stream's head, which `CW` holds. -/
theorem encodeWritesHeaderAndPayloadBits : Obligations.EncodeWritesHeaderAndPayloadBits := by
  intro s c hc hfit
  have hmode : ∀ j < 4, streamBit (s.encoded c).cwAt j = (0b0100).testBit (3 - j) := fun j hj =>
    State.streamBit_encoded_of_streamHead hfit (getElem?_streamHead_mode _ hj)
  refine ⟨s.encoded c, exec_encode_of_fits hc hfit,
    ⟨hmode 0 (by decide), hmode 1 (by decide), hmode 2 (by decide), hmode 3 (by decide)⟩, ?_, ?_⟩
  · intro j hj
    rw [← s.length_payload]
    exact State.streamBit_encoded_of_streamHead hfit (getElem?_streamHead_length _ hj)
  · intro i hi j hj
    exact State.streamBit_encoded_of_streamHead hfit
      (getElem?_streamHead_payload (s.getElem?_payload hi) hj)

end Sys2Proof.Machine

/-! ## `PLACE`: no cell is visited twice, and what each cell receives (R112 to R115) -/

namespace Sys2Proof.Machine

/-- Each pair lies at least two columns left of the one before, so no column is in two pairs
(R112). -/
theorem rightColumns_pairwise (fuel right : Nat) :
    (rightColumns fuel right).Pairwise fun r r' => r' + 2 ≤ r := by
  induction fuel generalizing right with
  | zero => exact .nil
  | succ fuel ih =>
    rw [rightColumns]
    split
    · exact .nil
    · refine List.pairwise_cons.mpr ⟨fun r' hr' => ?_, ih _⟩
      have := rightColumns_bounds hr'
      omega

theorem pairRows_nodup (n : Nat) (up : Bool) : (pairRows n up).Nodup := by
  refine List.nodup_range.map_on fun t ht t' ht' heq => ?_
  rw [List.mem_range] at ht ht'
  cases up
  · exact heq
  · simp only [if_true] at heq
    omega

theorem pairCells_nodup (n : Nat) (up : Bool) {r : Nat} (hr : 1 ≤ r) :
    (pairCells n up r).Nodup := by
  have hcols : r ≠ r - 1 := by omega
  refine List.nodup_flatMap.mpr ⟨fun y _ => ?_, (pairRows_nodup n up).imp fun {y y'} hrows => ?_⟩
  · simp [hcols]
  · simp [Function.onFun, hrows.symm]

theorem pairsCells_nodup (n : Nat) (up : Bool) {rs : List Nat} (hpos : ∀ r ∈ rs, 1 ≤ r)
    (hrs : rs.Pairwise fun r r' => r' + 2 ≤ r) : (pairsCells n up rs).Nodup := by
  induction rs generalizing up with
  | nil => exact .nil
  | cons r rs ih =>
    obtain ⟨hr, hpos⟩ := List.forall_mem_cons.mp hpos
    obtain ⟨hleft, hrs⟩ := List.pairwise_cons.mp hrs
    refine (pairCells_nodup n up hr).append (ih _ hpos hrs) fun c hc hc' => ?_
    obtain ⟨hx, -⟩ := mem_pairCells.mp hc
    obtain ⟨⟨r', hr', hx'⟩, -⟩ := mem_pairsCells.mp hc'
    have := hleft r' hr'
    omega

/-- No cell is visited twice, whatever the side (R117 item 1). -/
theorem visits_nodup (n : Nat) : (visits n).Nodup :=
  pairsCells_nodup n true (fun _ hr => (rightColumns_bounds hr).1) (rightColumns_pairwise n (n - 1))

/-- The state after the stream of `8 * c` bits is placed. -/
def State.placed (s : State) (c : Nat) : State :=
  { s with
    mg := placeCells s.fgAt (s.placedBit (8 * c)) (visits s.size.toNat) 0 s.mg
    phase := Phase.dataPlaced }

theorem exec_place_of_size_le {s : State} {c : Nat}
    (hc : capAt? s.config s.version.toNat s.level.toNat = some c) (hn : s.size.toNat ≤ 57) :
    exec .place s = .next (s.placed c) :=
  execPlace_eq_next.mpr ⟨c, hc, hn, rfl⟩

/-- The cell is written at this one visit, so it keeps the bit it gets there (R115). -/
theorem State.placed_mgAt_free {s : State} (c : Nat) (hn : s.size.toNat ≤ 57)
    {pre post : List (Nat × Nat)} {x y : Nat}
    (hv : visits s.size.toNat = pre ++ (x, y) :: post) (hfree : s.fgAt x y = false) :
    (s.placed c).mgAt x y = s.placedBit (8 * c) (freeCount s.fgAt pre) := by
  have hin : ∀ p ∈ (x, y) :: post, p.1 < s.size.toNat ∧ p.2 < s.size.toNat :=
    fun _ hp => visits_inWindow (hv ▸ List.mem_append_right pre hp)
  obtain ⟨⟨hx, hy⟩, hin⟩ := List.forall_mem_cons.mp hin
  have hpost : ∀ p ∈ post, p.1 < 57 := fun p hp => (hin p hp).1.trans_le hn
  have hnodup : (pre ++ (x, y) :: post).Nodup := hv ▸ visits_nodup s.size.toNat
  have hnot : (x, y) ∉ post := hnodup.of_append_right.notMem
  rw [State.mgAt, State.placed, hv,
    placeCells_read_at _ _ _ pre post 0 _ (by omega) (by omega) hpost hnot hfree, Nat.zero_add]

theorem State.placed_mgAt_other {s : State} (c : Nat) (hn : s.size.toNat ≤ 57) {x y : Nat}
    (hx : x < 57) (h : s.fgAt x y = true ∨ (x, y) ∉ visits s.size.toNat) :
    (s.placed c).mgAt x y = s.mgAt x y :=
  placeCells_read_other _ _ _ _ (fun _ hp => (visits_inWindow hp).1.trans_le hn) _ _ hx h

/-- Settles O34: no cell is visited twice, so the bit given at a visit is not overwritten. -/
theorem placeGivesFreeCellsTheStream : Obligations.PlaceGivesFreeCellsTheStream := by
  intro s c hc hsize
  have hn : s.size.toNat ≤ 57 := by
    obtain ⟨hv, -⟩ := capAt?_eq_some hc
    omega
  refine ⟨s.placed c, exec_place_of_size_le hc hn, rfl, ?_, ?_⟩
  · intro pre x y post hvisits hfree
    exact s.placed_mgAt_free c hn hvisits hfree
  · intro x hx y _ h
    exact s.placed_mgAt_other c hn hx h

end Sys2Proof.Machine

/-! ## `MASK`: the toggle is its own inverse, and the penalty by maximal runs (R121, R123) -/

namespace Sys2Proof.Machine

/-- Settles O37: the second application XORs each cell with the same bit as the first. -/
theorem applyMaskTwiceRestores : Obligations.ApplyMaskTwiceRestores := by
  intro fg free n m g hn x hx y _
  rw [applyMask_read fg free hn m _ hx, applyMask_read fg free hn m g hx, Bool.xor_assoc,
    Bool.xor_self, Bool.xor_false]

theorem runScore_eq_maximalRunScore (r : Nat) : runScore r = maximalRunScore r := by
  unfold runScore maximalRunScore
  split
  · omega
  · rfl

/-- The sum of the scores of the runs in a list of runs (R123). -/
def runsScore (runs : List (List Bool)) : Nat :=
  (runs.map fun run => maximalRunScore run.length).sum

@[simp] theorem runsScore_nil : runsScore [] = 0 := rfl

@[simp] theorem runsScore_cons (run : List Bool) (runs : List (List Bool)) :
    runsScore (run :: runs) = runScore run.length + runsScore runs := by
  simp [runsScore, runScore_eq_maximalRunScore]

@[simp] theorem runsScore_reverse (runs : List (List Bool)) :
    runsScore runs.reverse = runsScore runs := by
  simp [runsScore, List.sum_reverse]

/-- The loop of `splitBy` keeps the cells of the current run before `prev`, where the scan keeps only
that run's length: both score the rest of the row alike, whatever runs `done` lie behind (R123). -/
theorem runsScore_splitByLoop (rest : List Bool) (prev : Bool) (current : List Bool)
    (done : List (List Bool)) :
    runsScore (List.splitBy.loop (· == ·) rest prev current done) =
      scanRow prev (current.length + 1) rest + runsScore done := by
  induction rest generalizing prev current done with
  | nil =>
    rw [List.splitBy.loop, runsScore_reverse, runsScore_cons, List.length_reverse,
      List.length_cons, scanRow]
  | cons b rest ih =>
    by_cases heq : b = prev
    · subst heq
      simp [List.splitBy.loop, scanRow, ih]
    · have hne : (prev == b) = false := beq_false_of_ne (Ne.symm heq)
      simp [List.splitBy.loop, scanRow, hne, heq, ih]
      omega

/-- The scan of a row scores its maximal runs, the run at the edge included (R123). -/
theorem rowScore_eq_runsScore_splitBy (row : List Bool) :
    rowScore row = runsScore (row.splitBy (· == ·)) := by
  cases row with
  | nil => rfl
  | cons b rest =>
    rw [rowScore, List.splitBy, runsScore_splitByLoop, runsScore_nil, List.length_nil,
      Nat.zero_add, Nat.add_zero]

/-- Settles O38: each row's score is that of its maximal runs. -/
theorem penaltySumsMaximalRunScores : Obligations.PenaltySumsMaximalRunScores := by
  intro free n g
  unfold penalty
  congr 1
  exact List.map_congr_left fun y _ => rowScore_eq_runsScore_splitBy (gridRow free n g y)

end Sys2Proof.Machine

/-! ## A recorded error stays (R147): outside `IDLE` no host line but `CLEAR` and `RESET` acts -/

namespace Sys2Proof.Machine

theorem exec_start_of_ne_idle {s : State} (n : Nat) (h : s.phase ≠ Phase.idle) :
    exec (.start n) s = .next s := by
  rw [exec_start, if_neg h]

theorem exec_pwrite_of_ne_idle {s : State} (a : Nat) (d : Byte) (h : s.phase ≠ Phase.idle) :
    exec (.pwrite a d) s = .next s := by
  rw [exec_pwrite, if_neg fun hguard => h hguard.1]

/-- Outside `IDLE` every presentation but `CLEAR` and `RESET` is ignored (R73, R76 to R78). -/
theorem exec_decodeH_of_ne_idle {s : State} {p : HostPorts} (h : s.phase ≠ Phase.idle)
    (hclear : decodeH p ≠ .clear) (hreset : decodeH p ≠ .reset) :
    exec (decodeH p) s = .next s := by
  obtain hd | hd | hd | hd | hd := decodeH_cases p
  · exact absurd hd hreset
  · exact absurd hd hclear
  · rw [hd, exec_start_of_ne_idle _ h]
  · rw [hd, exec_pwrite_of_ne_idle _ _ h]
  · rw [hd, exec_noph]

/-- A read sets the read port's bit and may advance the model's count of free reads (R79, log 6). -/
theorem exec_rdcell_eq_next (x y : Nat) (s : State) :
    ∃ dark reads, exec (.rdcell x y) s = .next { s with rdDark := dark, anyReads := reads } := by
  obtain ⟨-, -, h⟩ | ⟨-, h⟩ := execRdcell_cases x y s
  · exact ⟨_, _, h⟩
  · exact ⟨_, _, h⟩

/-- `FAILED` is a terminal phase of the sequencer (R80). -/
theorem exec_decodeS_failed (s : State) : exec (decodeS Phase.failed) s = .next s := rfl

/-- What a step does in `FAILED`, by what it presents: the wait, an ignored host line, a read. -/
theorem step_of_failed {s t : State} (hfailed : s.phase = Phase.failed) (hstep : step s = .next t)
    (hclear : decode s.fetch.1 ≠ .clear) (hreset : decode s.fetch.1 ≠ .reset) :
    t.err = s.err ∧ t.phase = Phase.failed := by
  rw [step_eq] at hstep
  obtain ⟨-, hf⟩ | ⟨p, -, -, hf⟩ | ⟨x, y, -, -, hf⟩ := fetch_cases s
  · rw [hf, hfailed, decode, exec_decodeS_failed] at hstep
    cases hstep
    exact ⟨rfl, rfl⟩
  · have hne : s.phase ≠ Phase.idle := by rw [hfailed]; decide
    rw [hf] at hstep hclear hreset
    have hignored := exec_decodeH_of_ne_idle (s := { s with script := s.script.tail }) hne hclear
      hreset
    rw [decode, hignored] at hstep
    cases hstep
    exact ⟨rfl, hfailed⟩
  · obtain ⟨dark, reads, hread⟩ :=
      exec_rdcell_eq_next x.toNat y.toNat { s with script := s.script.tail }
    rw [hf, decode, hread] at hstep
    cases hstep
    exact ⟨rfl, hfailed⟩

/-- Settles O51: an error is recorded in `FAILED` only (R21), and no step but `CLEAR` and `RESET`
changes `ERR` or `PHASE` there. -/
theorem errorStaysUntilHostClears : Obligations.ErrorStaysUntilHostClears := by
  intro s t hinv herr hstep hclear hreset
  exact step_of_failed (hinv.errIffFailed.mp herr) hstep hclear hreset

end Sys2Proof.Machine

/-! ## `PLACE` and `MASK` pass over the function-owned cells (R161) -/

namespace Sys2Proof.Machine

/-- `PLACE` writes `MG` only, and there no function-owned cell (R115). -/
theorem exec_place_keeps_function_cell {s t : State} (h : exec .place s = .next t) {x y : Nat}
    (hx : x < 57) (hfg : s.fgAt x y = true) : t.mgAt x y = s.mgAt x y ∧ t.fgAt x y = true := by
  obtain ⟨c, -, hn, rfl⟩ := execPlace_eq_next.mp h
  exact ⟨s.placed_mgAt_other c hn hx (.inl hfg), hfg⟩

/-- `applymask` toggles no function-owned cell (R120). -/
theorem applyMask_read_function (fg : Nat → Nat → Bool) (free : Nat → Bool) {n : Nat} (hn : n ≤ 57)
    (m : Nat) (g : Grid) {x y : Nat} (hx : x < 57) (hfg : fg x y = true) :
    (applyMask fg free n m g).read free x y = g.read free x y := by
  rw [applyMask_read fg free hn m g hx, hfg, Bool.not_true, Bool.false_and, Bool.and_false,
    Bool.xor_false]

/-- The trials of the candidates leave a function-owned cell as it is (R120, R122). -/
theorem tryMasks_read_function (fg : Nat → Nat → Bool) (free : Nat → Bool) {n : Nat} (hn : n ≤ 57)
    (l : List Nat) (g : Grid) (best : Option (Nat × Nat)) {x y : Nat} (hx : x < 57)
    (hfg : fg x y = true) :
    (tryMasks fg free n l g best).1.read free x y = g.read free x y := by
  induction l generalizing g best with
  | nil => rfl
  | cons m l ih =>
    rw [tryMasks, ih, applyMask_read_function fg free hn m _ hx hfg,
      applyMask_read_function fg free hn m g hx hfg]

/-- Neither the trials nor the commit of `MASK` writes a function-owned cell (R120, R125). -/
theorem exec_mask_keeps_function_cell {s t : State} (h : exec .mask s = .next t) {x y : Nat}
    (hx : x < 57) (hfg : s.fgAt x y = true) : t.mgAt x y = s.mgAt x y ∧ t.fgAt x y = true := by
  obtain ⟨hn, rfl⟩ := execMask_eq_next.mp h
  have hcommit := applyMask_read_function s.fgAt (Config.freeMg s.epoch) hn
  have htrials := tryMasks_read_function s.fgAt (Config.freeMg s.epoch) hn
  exact ⟨(hcommit _ _ hx hfg).trans (htrials _ _ _ hx hfg), hfg⟩

/-- Settles O35: each of the two operations keeps the cell and its mark. -/
theorem functionCellsSurvivePlaceAndMask : Obligations.FunctionCellsSurvivePlaceAndMask := by
  intro s t u hplace hmask x hx y _ hfg
  obtain ⟨hplaced, hmark⟩ := exec_place_keeps_function_cell hplace hx hfg
  obtain ⟨hmasked, hmark'⟩ := exec_mask_keeps_function_cell hmask hx hmark
  exact ⟨hmasked.trans hplaced, hmark'⟩

end Sys2Proof.Machine

/-! ## The payload is stable outside `IDLE` (R158) -/

namespace Sys2Proof.Machine

theorem exec_clear_keeps_pbuf {s t : State} (h : exec .clear s = .next t) : t.pbuf = s.pbuf := by
  rw [exec_clear] at h
  split at h <;> cases h <;> rfl

/-- No instruction but `RESET`, `CLEAR`, `START` and `PWRITE` writes `PBUF` or `PLEN`, and outside
`IDLE` the last two are ignored (R76, R77). -/
theorem exec_keeps_payload {i : Instr} {s t : State} (hne : s.phase ≠ Phase.idle)
    (hreset : i ≠ .reset) (hclear : i ≠ .clear) (h : exec i s = .next t) :
    t.pbuf = s.pbuf ∧ t.plen = s.plen := by
  cases i with
  | reset => exact absurd rfl hreset
  | clear => exact absurd rfl hclear
  | start n => rw [exec_start_of_ne_idle n hne] at h; cases h; exact ⟨rfl, rfl⟩
  | pwrite a d => rw [exec_pwrite_of_ne_idle a d hne] at h; cases h; exact ⟨rfl, rfl⟩
  | create =>
    obtain ⟨-, rfl⟩ | ⟨-, -, rfl⟩ | ⟨-, v, e, -, rfl⟩ := execCreate_cases h <;> exact ⟨rfl, rfl⟩
  | pattern => obtain ⟨-, rfl⟩ | ⟨-, -, -, rfl⟩ := execPattern_cases h <;> exact ⟨rfl, rfl⟩
  | encode => obtain ⟨c, -, -, rfl⟩ := execEncode_eq_next.mp h; exact ⟨rfl, rfl⟩
  | place => obtain ⟨c, -, -, rfl⟩ := execPlace_eq_next.mp h; exact ⟨rfl, rfl⟩
  | mask => obtain ⟨-, rfl⟩ := execMask_eq_next.mp h; exact ⟨rfl, rfl⟩
  | format => obtain ⟨-, rfl⟩ := execFormat_eq_next.mp h; exact ⟨rfl, rfl⟩
  | rdcell x y =>
    obtain ⟨dark, reads, hread⟩ := exec_rdcell_eq_next x y s
    rw [hread] at h
    cases h
    exact ⟨rfl, rfl⟩
  | noph | waitIdle | waitFormatEmbedded | waitFailed => cases h; exact ⟨rfl, rfl⟩
  | reserved9 | reserved10 | reserved11 | reserved12 | reserved13 | reserved14 | reserved15 =>
    cases h

/-- Settles O52: `CLEAR` keeps `PBUF`, and every other step but `RESET` keeps both. -/
theorem payloadIsStableOutsideIdle : Obligations.PayloadIsStableOutsideIdle := by
  intro s t hne hstep hreset
  rw [step_eq] at hstep
  by_cases hclear : decode s.fetch.1 = .clear
  · rw [hclear] at hstep
    have hpbuf := exec_clear_keeps_pbuf hstep
    exact ⟨hpbuf, absurd hclear⟩
  · obtain ⟨hpbuf, hplen⟩ :=
      exec_keeps_payload (s := { s with script := s.script.tail }) hne hreset hclear hstep
    exact ⟨hpbuf, fun _ => hplen⟩

end Sys2Proof.Machine

/-! ## The trace word read back, and the rows of the opcode table (R53 to R58, R70; log 8) -/

namespace Sys2Proof

/-- What a well-formed instruction is encoded as decodes to it: each operand fits its port. -/
theorem decode_encode {i : Instr} (h : i.wellFormed = true) : decode (encode i) = i := by
  cases i with
  | start n => simpa [encode, decode, decodeH, Instr.wellFormed] using h
  | pwrite a d => simpa [encode, decode, decodeH, Instr.wellFormed] using h
  | rdcell x y => simpa [encode, decode, Instr.wellFormed] using h
  | _ => rfl

theorem wordOfFetched_lt (f : Fetched) : wordOfFetched f < 2 ^ 41 := by
  cases f with
  | formatH p =>
    have hh := p.h.isLt
    have hplen := p.plen.isLt
    have haddr := p.pwAddr.isLt
    have hdata := p.pwData.isLt
    simp only [wordOfFetched]
    omega
  | formatS phase =>
    have hphase := phase.isLt
    simp only [wordOfFetched]
    omega
  | readPort x y =>
    have hx := x.isLt
    have hy := y.isLt
    simp only [wordOfFetched]
    omega

/-- The fields of a trace word do not overlap, so each is read back as it was written. -/
theorem fetchedOfWord_wordOfFetched (f : Fetched) : fetchedOfWord (wordOfFetched f) = .ok f := by
  cases f with
  | formatH p =>
    obtain ⟨h, plen, addr, data⟩ := p
    have hh := h.isLt
    have hplen := plen.isLt
    have haddr := addr.isLt
    have hdata := data.isLt
    generalize hw : wordOfFetched (.formatH ⟨h, plen, addr, data⟩) = w
    simp only [wordOfFetched] at hw
    have htag : wordField w 4 4 = 1 := by simp only [wordField]; omega
    have hrest : w / 2 ^ 41 = 0 := by omega
    have hvec : wordField w 0 4 = h.toNat := by simp only [wordField]; omega
    have hn : wordField w 8 16 = plen.toNat := by simp only [wordField]; omega
    have ha : wordField w 24 9 = addr.toNat := by simp only [wordField]; omega
    have hd : wordField w 33 8 = data.toNat := by simp only [wordField]; omega
    simp only [fetchedOfWord, htag, hrest, hvec, hn, ha, hd, if_true, BitVec.ofNat_toNat,
      BitVec.setWidth_eq]
  | formatS phase =>
    have hphase := phase.isLt
    generalize hw : wordOfFetched (.formatS phase) = w
    simp only [wordOfFetched] at hw
    have htag : wordField w 4 4 = 0 := by simp only [wordField]; omega
    have hrest : w / 2 ^ 8 = 0 := by omega
    have hvec : wordField w 0 4 = phase.toNat := by simp only [wordField]; omega
    simp only [fetchedOfWord, htag, hrest, hvec, if_true, BitVec.ofNat_toNat, BitVec.setWidth_eq]
  | readPort x y =>
    have hx := x.isLt
    have hy := y.isLt
    generalize hw : wordOfFetched (.readPort x y) = w
    simp only [wordOfFetched] at hw
    have htag : wordField w 4 4 = 2 := by simp only [wordField]; omega
    have hrest : w / 2 ^ 20 = 0 := by omega
    have hvec : wordField w 0 4 = 0 := by simp only [wordField]; omega
    have hpx : wordField w 8 6 = x.toNat := by simp only [wordField]; omega
    have hpy : wordField w 14 6 = y.toNat := by simp only [wordField]; omega
    simp only [fetchedOfWord, htag, hrest, hvec, hpx, hpy, and_self, if_true, BitVec.ofNat_toNat,
      BitVec.setWidth_eq]

theorem decodeTableWord_wordOfFetched (f : Fetched) :
    decodeTableWord 41 (wordOfFetched f) = some (decode f) := by
  rw [decodeTableWord, Nat.mod_eq_of_lt (wordOfFetched_lt f), fetchedOfWord_wordOfFetched]

/-- Settles O3: the trace word gives back what was encoded, which decodes to the instruction. -/
theorem encodedInstructionDecodesBack : Obligations.EncodedInstructionDecodesBack := by
  intro i hi
  refine ⟨decode_encode hi, wordOfFetched_lt _, ?_⟩
  rw [decodeTableWord_wordOfFetched, decode_encode hi]

/-- Settles O2: each phase code is one row of the decoder's table. -/
theorem formatSDecodesPhaseCodes : Obligations.FormatSDecodesPhaseCodes :=
  ⟨rfl, rfl, rfl, rfl, rfl, rfl, rfl, rfl, rfl, rfl, rfl, rfl, rfl, rfl, rfl, rfl⟩

/-- The operand ports play no part in which row a presentation belongs to (R56). -/
theorem mnemonic_decodeH (p : HostPorts) :
    (decodeH p).mnemonic = (decodeH (.plain p.h)).mnemonic := by
  obtain ⟨h, n, a, d⟩ := p
  change (decodeH ⟨h, n, a, d⟩).mnemonic = (decodeH ⟨h, 0, 0, 0⟩).mnemonic
  simp only [decodeH, apply_ite Instr.mnemonic]
  rfl

theorem formatH_rows_accepting (h : Nibble) :
    (opcodeRows.filter fun r => r.accepts .H h).map Row.mnemonic =
      [(decodeH (.plain h)).mnemonic] := by
  revert h
  decide

theorem formatS_rows_accepting (phase : Nibble) :
    (opcodeRows.filter fun r => r.accepts .S phase).map Row.mnemonic =
      [(decodeS phase).mnemonic] := by
  revert phase
  decide

/-- Settles O4: for each of the sixteen vectors of either format. -/
theorem oneTableRowAcceptsEachVector : Obligations.OneTableRowAcceptsEachVector :=
  ⟨fun p => by rw [mnemonic_decodeH, formatH_rows_accepting], formatS_rows_accepting⟩

/-- Settles O5: one lemma per constructor. -/
theorem encodingsMatchTheirTableRows : Obligations.EncodingsMatchTheirTableRows := by
  intro i
  cases i with
  | reset => exact Laws.TableRow.reset
  | clear => exact Laws.TableRow.clear
  | start n => exact Laws.TableRow.start n
  | pwrite a d => exact Laws.TableRow.pwrite a d
  | noph => exact Laws.TableRow.noph
  | create => exact Laws.TableRow.create
  | pattern => exact Laws.TableRow.pattern
  | encode => exact Laws.TableRow.encode
  | place => exact Laws.TableRow.place
  | mask => exact Laws.TableRow.mask
  | format => exact Laws.TableRow.format
  | waitIdle => exact Laws.TableRow.waitIdle
  | waitFormatEmbedded => exact Laws.TableRow.waitFormatEmbedded
  | waitFailed => exact Laws.TableRow.waitFailed
  | reserved9 => exact Laws.TableRow.reserved9
  | reserved10 => exact Laws.TableRow.reserved10
  | reserved11 => exact Laws.TableRow.reserved11
  | reserved12 => exact Laws.TableRow.reserved12
  | reserved13 => exact Laws.TableRow.reserved13
  | reserved14 => exact Laws.TableRow.reserved14
  | reserved15 => exact Laws.TableRow.reserved15
  | rdcell x y => exact Laws.TableRow.rdcell x y

end Sys2Proof

/-! ## The step by the head of the script, and the word placed for it (R58, R82; logs 1 and 8) -/

namespace Sys2Proof.Machine

/-- Settles O6: the fetch of each kind of line, then decode and execute. -/
theorem stepRunsDecodedInstruction : Obligations.StepRunsDecodedInstruction := by
  intro s
  refine ⟨fun h => ?_, fun rest h => ?_, fun p rest h => ?_, fun x y rest h => ?_⟩
  · rw [step, State.fetch_nil h, decode]
  · rw [step, State.fetch_seq h, decode]
  · rw [step, State.fetch_host h, decode]
  · rw [step, State.fetch_read h, decode]

/-- The state with the line at the head of the script taken (log 1). -/
def State.taken (s : State) : State := { s with script := s.script.tail }

/-- What a step is, by what it presents: the sequencer, a host event or a read. -/
theorem step_cases (s : State) :
    (s.fetch.1 = .formatS s.phase ∧ step s = exec (decodeS s.phase) s.taken) ∨
    (∃ p, s.fetch.1 = .formatH p ∧ step s = exec (decodeH p) s.taken) ∨
    (∃ x y, s.fetch.1 = .readPort x y ∧ step s = exec (.rdcell x.toNat y.toNat) s.taken) := by
  obtain ⟨-, hf⟩ | ⟨p, -, -, hf⟩ | ⟨x, y, -, -, hf⟩ := fetch_cases s
  · exact .inl ⟨hf, by rw [step_eq, hf]; rfl⟩
  · exact .inr (.inl ⟨p, hf, by rw [step_eq, hf]; rfl⟩)
  · exact .inr (.inr ⟨x, y, hf, by rw [step_eq, hf]; rfl⟩)

theorem fetchedOfWord_of_decodeTableWord {nbits w : Nat} {i : Instr}
    (h : decodeTableWord nbits w = some i) :
    ∃ f, fetchedOfWord (w % 2 ^ nbits) = .ok f ∧ decode f = i := by
  unfold decodeTableWord at h
  split at h
  · exact ⟨_, ‹_›, Option.some.inj h⟩
  · cases h

/-- Settles O7: the line put at the head of the script is the one the step takes. -/
theorem placedWordRunsNext : Obligations.PlacedWordRunsNext := by
  intro s nbits w i h
  obtain ⟨f, hf, rfl⟩ := fetchedOfWord_of_decodeTableWord h
  cases f with
  | formatH p => exact .inl (by rw [State.withFetchWord, hf]; rfl)
  | formatS phase => exact .inr ⟨phase, rfl, by rw [State.withFetchWord, hf]; rfl⟩
  | readPort x y => exact .inl (by rw [State.withFetchWord, hf]; rfl)

end Sys2Proof.Machine

/-! ## `RESET`, the read port, and the rows and versions without an operation (R29, R70, R74, R79,
R80) -/

namespace Sys2Proof.Machine

/-- The state `RESET` leaves (R74). -/
def State.afterReset (s : State) : State :=
  { s.clearRegisters with
    pbuf := [], cw := [], mg := Grid.unwritten, fg := Grid.unwritten, epoch := s.epoch + 1 }

theorem exec_reset (s : State) : exec .reset s = .next s.afterReset := rfl

/-! Where nothing has been written, every read answers a free value (R29, log 5). -/

theorem State.pbufAt_of_nil {s : State} (h : s.pbuf = []) (a : Nat) :
    s.pbufAt a = Config.freePbuf s.epoch a := by
  rw [State.pbufAt, h, Memory.find_nil, Option.getD_none]

theorem State.cwAt_of_nil {s : State} (h : s.cw = []) (a : Nat) :
    s.cwAt a = Config.freeCw s.epoch a := by
  rw [State.cwAt, h, Memory.find_nil, Option.getD_none]

theorem State.mgAt_of_unwritten {s : State} (h : s.mg = Grid.unwritten) (x y : Nat) :
    s.mgAt x y = Config.freeMg s.epoch (cellIndex x y) := by
  rw [State.mgAt, h, Grid.read_unwritten]

theorem State.fgAt_of_unwritten {s : State} (h : s.fg = Grid.unwritten) (x y : Nat) :
    s.fgAt x y = Config.freeFg s.epoch (cellIndex x y) := by
  rw [State.fgAt, h, Grid.read_unwritten]

/-- Settles O8: the registers by the update, the memories because nothing counts as written. -/
theorem resetZeroesRegistersAndForgetsMemories :
    Obligations.ResetZeroesRegistersAndForgetsMemories := fun s =>
  ⟨s.afterReset, exec_reset s, ⟨rfl, rfl, rfl, rfl, rfl, rfl, rfl, rfl, rfl⟩,
    fun a => ⟨State.pbufAt_of_nil rfl a, State.cwAt_of_nil rfl a⟩,
    fun x y => ⟨State.mgAt_of_unwritten rfl x y, State.fgAt_of_unwritten rfl x y⟩,
    ⟨rfl, rfl, rfl⟩, rfl⟩

/-- Settles O9: the reset state by its definition, its memories because nothing is written. -/
theorem resetStateHoldsResetValues : Obligations.ResetStateHoldsResetValues :=
  ⟨⟨rfl, rfl, rfl, rfl, rfl, rfl, rfl, rfl, rfl⟩, ⟨rfl, rfl, rfl⟩,
    fun a => ⟨State.pbufAt_of_nil rfl a, State.cwAt_of_nil rfl a⟩,
    fun x y => ⟨State.mgAt_of_unwritten rfl x y, State.fgAt_of_unwritten rfl x y⟩⟩

theorem rdCellInWindow_iff {n x y : Nat} :
    rdCellInWindow n x y = true ↔ x < n ∧ y < n ∧ x < 57 ∧ y < 57 := by
  simp [rdCellInWindow, and_assoc]

theorem exec_rdcell_shown {s : State} {x y : Nat} (hphase : s.phase = Phase.formatEmbedded)
    (hin : rdCellInWindow s.size.toNat x y = true) :
    exec (.rdcell x y) s = .next { s with rdDark := s.mgAt x y } := by
  obtain ⟨-, -, h⟩ | ⟨hnot, -⟩ := execRdcell_cases x y s
  · exact h
  · exact absurd ⟨hphase, hin⟩ hnot

theorem exec_rdcell_any {s : State} {x y : Nat}
    (h : ¬(s.phase = Phase.formatEmbedded ∧ rdCellInWindow s.size.toNat x y = true)) :
    exec (.rdcell x y) s =
      .next { s with rdDark := Config.freeRdDark s.anyReads, anyReads := s.anyReads + 1 } := by
  obtain ⟨hphase, hin, -⟩ | ⟨-, h⟩ := execRdcell_cases x y s
  · exact absurd ⟨hphase, hin⟩ h
  · exact h

/-- Settles O14: with a side of at most 57 the window test is that of the statement. -/
theorem rdcellShowsFinishedGridOnly : Obligations.RdcellShowsFinishedGridOnly := by
  intro s x y _ _ hn
  constructor
  · intro hphase hx hy
    exact exec_rdcell_shown hphase (rdCellInWindow_iff.mpr ⟨hx, hy, by omega, by omega⟩)
  · intro hout
    refine exec_rdcell_any fun ⟨hphase, hin⟩ => ?_
    obtain ⟨hx, hy, -, -⟩ := rdCellInWindow_iff.mp hin
    rcases hout with hne | hle | hle
    · exact hne hphase
    · omega
    · omega

/-- Settles O36: each predicate is the test of its row in R119. -/
theorem maskPredicateTable : Obligations.MaskPredicateTable := fun _ _ =>
  ⟨beq_iff_eq, beq_iff_eq, beq_iff_eq, beq_iff_eq, beq_iff_eq, beq_iff_eq, beq_iff_eq, beq_iff_eq⟩

/-- Settles O43: each row is `State.wait`. -/
theorem waitRowsChangeNothing : Obligations.WaitRowsChangeNothing := fun _ => ⟨rfl, rfl, rfl⟩

theorem capAt?_of_version_out {c : Config} {v e : Nat} (h : ¬(1 ≤ v ∧ v ≤ 10)) :
    capAt? c v e = none := dif_neg fun hin => h hin.1

/-- Settles O46: no table has a row for such a version. -/
theorem versionOutOfRangeIsRefused : Obligations.VersionOutOfRangeIsRefused := by
  intro s hv
  have hout : ¬(1 ≤ s.version.toNat ∧ s.version.toNat ≤ 10) := by
    rcases hv with h0 | h11
    · simp [h0]
    · omega
  have hcap := capAt?_of_version_out (c := s.config) (e := s.level.toNat) hout
  refine ⟨by rw [exec, execEncode, hcap], by rw [exec, execPlace, hcap], fun h0 hmg hfg => ?_⟩
  have hgt : s.version.toNat > 1 := by
    have : s.version.toNat ≠ 0 := fun h => h0 (BitVec.eq_of_toNat_eq h)
    omega
  rw [exec, execPattern, if_neg (by simp [hmg, hfg]), if_pos hgt, alignAt?_eq_none.mpr hout]

end Sys2Proof.Machine

/-! ## Host lines where only `RESET` is accepted: busy and reserved phases (R70, R73) -/

namespace Sys2Proof.Machine

theorem State.acceptsClear_eq_false_iff (s : State) :
    s.acceptsClear = false ↔
      s.phase ≠ Phase.idle ∧ s.phase ≠ Phase.formatEmbedded ∧ s.phase ≠ Phase.failed := by
  rw [← Bool.not_eq_true, s.acceptsClear_iff, not_or, not_or]

theorem State.acceptsClear_of_busy {s : State} (h : s.busy = true) : s.acceptsClear = false := by
  rw [s.acceptsClear_eq_false_iff]
  rcases s.busy_iff.mp h with h | h | h | h | h | h <;> rw [h] <;> decide

theorem State.acceptsClear_of_reserved {s : State} (h : 9 ≤ s.phase.toNat) :
    s.acceptsClear = false := by
  rw [s.acceptsClear_eq_false_iff]
  refine ⟨?_, ?_, ?_⟩ <;> intro heq <;> rw [heq] at h <;> revert h <;> decide

/-- Where `CLEAR` is not accepted no event but `RESET` is. -/
theorem exec_decodeH_of_not_acceptsClear {s : State} {p : HostPorts} (h : s.acceptsClear = false)
    (hreset : decodeH p ≠ .reset) : exec (decodeH p) s = .next s := by
  have hphase := s.acceptsClear_eq_false_iff.mp h
  by_cases hclear : decodeH p = .clear
  · rw [hclear, exec_clear, if_neg (by simpa using hphase)]
  · exact exec_decodeH_of_ne_idle hphase.1 hclear hreset

theorem decodeH_ne_reset {p : HostPorts} (h : p.h.getLsbD 3 = false) : decodeH p ≠ .reset := by
  simp only [decodeH, h]
  repeat' split
  all_goals simp_all

/-- Settles O15: the host line is ignored, and the read answers a free value. -/
theorem busyIgnoresHostLines : Obligations.BusyIgnoresHostLines := by
  intro s rest hbusy
  constructor
  · intro p hscript hrst
    rw [step, State.fetch_host hscript]
    exact exec_decodeH_of_not_acceptsClear (State.acceptsClear_of_busy hbusy)
      (decodeH_ne_reset hrst)
  · intro x y hscript
    have hphase := s.acceptsClear_eq_false_iff.mp (State.acceptsClear_of_busy hbusy)
    rw [step, State.fetch_read hscript]
    exact exec_rdcell_any fun h => hphase.2.1 h.1

/-- Settles O45: the sequencer is stuck, host lines other than `RESET` are ignored, and a read
changes no register. -/
theorem onlyResetLeavesReservedPhase : Obligations.OnlyResetLeavesReservedPhase := by
  intro s t hp hstep
  obtain ⟨-, hs⟩ | ⟨p, hf, hs⟩ | ⟨x, y, -, hs⟩ := step_cases s <;> rw [hs] at hstep
  · rw [exec_decodeS_of_reserved hp] at hstep
    cases hstep
  · by_cases hreset : decodeH p = .reset
    · exact .inr (by rw [hf, decode, hreset])
    · have hno : s.taken.acceptsClear = false := State.acceptsClear_of_reserved hp
      rw [exec_decodeH_of_not_acceptsClear hno hreset] at hstep
      cases hstep
      exact .inl rfl
  · obtain ⟨dark, reads, hread⟩ := exec_rdcell_eq_next x.toNat y.toNat s.taken
    rw [hread] at hstep
    cases hstep
    exact .inl rfl

end Sys2Proof.Machine

/-! ## Where `PHASE` goes (R20, R58, R73) -/

namespace Sys2Proof.Machine

theorem exec_create_phase {s t : State} (h : exec .create s = .next t) :
    t.phase = Phase.uninit ∨ t.phase = Phase.failed := by
  obtain ⟨-, rfl⟩ | ⟨-, -, rfl⟩ | ⟨-, v, e, -, rfl⟩ := execCreate_cases h
  · exact .inr rfl
  · exact .inr rfl
  · exact .inl rfl

theorem exec_pattern_phase {s t : State} (h : exec .pattern s = .next t) :
    t.phase = Phase.patternsPlaced ∨ t.phase = Phase.failed := by
  obtain ⟨-, rfl⟩ | ⟨-, -, -, rfl⟩ := execPattern_cases h
  · exact .inr rfl
  · exact .inl rfl

theorem exec_encode_phase {s t : State} (h : exec .encode s = .next t) :
    t.phase = Phase.dataEncoded := by
  obtain ⟨c, -, -, rfl⟩ := execEncode_eq_next.mp h
  rfl

theorem exec_place_phase {s t : State} (h : exec .place s = .next t) :
    t.phase = Phase.dataPlaced := by
  obtain ⟨c, -, -, rfl⟩ := execPlace_eq_next.mp h
  rfl

theorem exec_mask_phase {s t : State} (h : exec .mask s = .next t) : t.phase = Phase.masked := by
  obtain ⟨-, rfl⟩ := execMask_eq_next.mp h
  rfl

theorem exec_format_phase {s t : State} (h : exec .format s = .next t) :
    t.phase = Phase.formatEmbedded := by
  obtain ⟨-, rfl⟩ := execFormat_eq_next.mp h
  rfl

/-- From `s` to `t` the phase goes one forward or to `FAILED` where the sequencer is busy, and stays
elsewhere (R20, R58). -/
abbrev PhaseAdvances (s t : State) : Prop :=
  if s.busy = true then t.phase = s.phase + 1 ∨ t.phase = Phase.failed else t.phase = s.phase

theorem PhaseAdvances.of_operation {s t : State} {p : Nibble} (hbusy : s.busy = true)
    (hp : p = s.phase + 1) (hnext : t.phase = p ∨ t.phase = Phase.failed) : PhaseAdvances s t := by
  rw [PhaseAdvances, if_pos hbusy, ← hp]
  exact hnext

theorem PhaseAdvances.of_wait {s t : State} (hidle : s.busy = false)
    (h : s.wait = .next t) : PhaseAdvances s t := by
  cases h
  rw [PhaseAdvances, hidle, if_neg Bool.false_ne_true]

theorem exec_decodeS_phase {s t : State} (h : exec (decodeS s.phase) s = .next t) :
    PhaseAdvances s t := by
  obtain ⟨hp, hd⟩ | ⟨hp, hd⟩ | ⟨hp, hd⟩ | ⟨hp, hd⟩ | ⟨hp, hd⟩ | ⟨hp, hd⟩ | ⟨hp, hd⟩ | ⟨hp, hd⟩ |
    ⟨hp, hd⟩ | ⟨hp, -⟩ := decodeS_cases s.phase
  · rw [hd] at h
    exact .of_wait (by rw [State.busy, hp]; rfl) h
  · exact .of_operation (by rw [State.busy, hp]; rfl) (by rw [hp]; rfl) (exec_create_phase (hd ▸ h))
  · exact .of_operation (by rw [State.busy, hp]; rfl) (by rw [hp]; rfl)
      (exec_pattern_phase (hd ▸ h))
  · exact .of_operation (by rw [State.busy, hp]; rfl) (by rw [hp]; rfl)
      (.inl (exec_encode_phase (hd ▸ h)))
  · exact .of_operation (by rw [State.busy, hp]; rfl) (by rw [hp]; rfl)
      (.inl (exec_place_phase (hd ▸ h)))
  · exact .of_operation (by rw [State.busy, hp]; rfl) (by rw [hp]; rfl)
      (.inl (exec_mask_phase (hd ▸ h)))
  · exact .of_operation (by rw [State.busy, hp]; rfl) (by rw [hp]; rfl)
      (.inl (exec_format_phase (hd ▸ h)))
  · rw [hd] at h
    exact .of_wait (by rw [State.busy, hp]; rfl) h
  · rw [hd] at h
    exact .of_wait (by rw [State.busy, hp]; rfl) h
  · rw [exec_decodeS_of_reserved hp] at h
    cases h

theorem exec_decodeH_phase {p : HostPorts} {s t : State} (h : exec (decodeH p) s = .next t) :
    t.phase = s.phase ∨
    (s.phase = Phase.idle ∧ (∃ n, decodeH p = .start n) ∧ t.phase = Phase.started) ∨
    ((decodeH p = .clear ∨ decodeH p = .reset) ∧ t.phase = Phase.idle) := by
  obtain hd | hd | hd | hd | hd := decodeH_cases p
  · rw [hd] at h
    cases h
    exact .inr (.inr ⟨.inr hd, rfl⟩)
  · rw [hd, exec_clear] at h
    split at h <;> cases h
    · exact .inr (.inr ⟨.inl hd, rfl⟩)
    · exact .inl rfl
  · rw [hd, exec_start] at h
    split at h <;> cases h
    · exact .inr (.inl ⟨‹_›, ⟨_, hd⟩, rfl⟩)
    · exact .inl rfl
  · rw [hd, exec_pwrite] at h
    split at h <;> cases h <;> exact .inl rfl
  · rw [hd] at h
    cases h
    exact .inl rfl

/-- Settles O50: by what the step presents. -/
theorem phaseMovesOneForwardOrFails : Obligations.PhaseMovesOneForwardOrFails := by
  intro s t hstep
  obtain ⟨hf, hs⟩ | ⟨p, hf, hs⟩ | ⟨x, y, hf, hs⟩ := step_cases s <;> rw [hs] at hstep <;> rw [hf]
  · exact ⟨fun _ _ => exec_decodeS_phase (s := s.taken) hstep, nofun, nofun⟩
  · refine ⟨nofun, fun p' hp' => ?_, nofun⟩
    cases hp'
    exact exec_decodeH_phase (s := s.taken) hstep
  · refine ⟨nofun, nofun, fun _ _ _ => ?_⟩
    obtain ⟨dark, reads, hread⟩ := exec_rdcell_eq_next x.toNat y.toNat s.taken
    rw [hread] at hstep
    cases hstep
    rfl

end Sys2Proof.Machine

/-! ## Function marks stay (R28) -/

namespace Sys2Proof.Machine

/-- The state after function-cell writes that go on to the phase `p` (R38). -/
def State.drawn (s : State) (ws : List CellWrite) (p : Nibble) : State :=
  { s.setfAll ws with phase := p }

@[simp] theorem State.drawn_mgAt (s : State) (ws : List CellWrite) (p : Nibble) (x y : Nat) :
    (s.drawn ws p).mgAt x y = (s.setfAll ws).mgAt x y := rfl

@[simp] theorem State.drawn_fgAt (s : State) (ws : List CellWrite) (p : Nibble) (x y : Nat) :
    (s.drawn ws p).fgAt x y = (s.setfAll ws).fgAt x y := rfl

theorem State.drawn_frame (s : State) (ws : List CellWrite) (p : Nibble) :
    s.drawn ws p = { s with mg := (s.drawn ws p).mg, fg := (s.drawn ws p).fg, phase := p } := rfl

theorem State.drawn_keeps_mark {s : State} {n : Nat} {ws : List CellWrite} (p : Nibble)
    (hws : ws.all (CellWrite.inWindow n) = true) {x y : Nat} (hx : x < 57)
    (hfg : s.fgAt x y = true) : (s.drawn ws p).fgAt x y = true := by
  rw [State.drawn_fgAt, s.setfAll_fgAt hws hx, hfg, Bool.or_true]

/-- No instruction but `RESET`, `CREATE`, `PATTERN` and `FORMAT` writes `FG`, and the last two only
set marks (R38). -/
theorem exec_keeps_mark {i : Instr} {s t : State} (hcreate : i ≠ .create) (hreset : i ≠ .reset)
    (h : exec i s = .next t) {x y : Nat} (hx : x < 57) (hfg : s.fgAt x y = true) :
    t.fgAt x y = true := by
  cases i with
  | reset => exact absurd rfl hreset
  | create => exact absurd rfl hcreate
  | clear => rw [exec_clear] at h; split at h <;> cases h <;> exact hfg
  | start n => rw [exec_start] at h; split at h <;> cases h <;> exact hfg
  | pwrite a d => rw [exec_pwrite] at h; split at h <;> cases h <;> exact hfg
  | pattern =>
    obtain ⟨-, rfl⟩ | ⟨-, -, hws, rfl⟩ := execPattern_cases h
    · exact hfg
    · exact State.drawn_keeps_mark _ hws hx hfg
  | encode => obtain ⟨c, -, -, rfl⟩ := execEncode_eq_next.mp h; exact hfg
  | place => obtain ⟨c, -, -, rfl⟩ := execPlace_eq_next.mp h; exact hfg
  | mask => obtain ⟨-, rfl⟩ := execMask_eq_next.mp h; exact hfg
  | format => 
    obtain ⟨hws, rfl⟩ := execFormat_eq_next.mp h
    exact State.drawn_keeps_mark _ hws hx hfg
  | rdcell x' y' =>
    obtain ⟨dark, reads, hread⟩ := exec_rdcell_eq_next x' y' s
    rw [hread] at h
    cases h
    exact hfg
  | noph | waitIdle | waitFormatEmbedded | waitFailed => cases h; exact hfg
  | reserved9 | reserved10 | reserved11 | reserved12 | reserved13 | reserved14 | reserved15 =>
    cases h

/-- Settles O53: the step runs an instruction that keeps the mark. -/
theorem functionMarkStaysUntilCreate : Obligations.FunctionMarkStaysUntilCreate := by
  intro s t hstep hcreate hreset x hx y _ hfg
  rw [step_eq] at hstep
  exact exec_keeps_mark (s := { s with script := s.script.tail }) hcreate hreset hstep hx hfg

end Sys2Proof.Machine

/-! ## `CREATE` with legal and with the default tables (R41, R86, R89, R90) -/

namespace Sys2Proof.Machine

theorem configLegal_largest_capacity {c : Config} (h : configLegal c = true) :
    capAt? c 10 0 = some 271 := by
  simp only [configLegal, Bool.and_eq_true, beq_iff_eq] at h
  obtain ⟨⟨⟨⟨-, hlargest⟩, -⟩, -⟩, -⟩ := h
  exact hlargest

/-- No table holds a capacity above 271 (R41 item 3). -/
theorem sizer_eq_none_of_long (c : Config) {l : Nat} (hl : 269 ≤ l) : sizer c l = none := by
  refine sizer_eq_none.mpr fun v e cap hcap => ?_
  obtain ⟨-, -, hle⟩ := capAt?_eq_some hcap
  omega

/-- The largest capacity is 271, so the sizer rejects exactly the lengths above 268 (R86). -/
theorem sizer_eq_none_iff_of_legal {c : Config} (h : configLegal c = true) {l : Nat} :
    sizer c l = none ↔ 271 < l + 3 := by
  constructor
  · exact fun hnone => sizer_eq_none.mp hnone 10 0 271 (configLegal_largest_capacity h)
  · exact fun hl => sizer_eq_none_of_long c (by omega)

/-- Settles O19: `CapacityError` is the outcome exactly where the sizer answers none. -/
theorem capacityErrorExactlyAbove271 : Obligations.CapacityErrorExactlyAbove271 := by
  intro s hlegal h0
  rw [← sizer_eq_none_iff_of_legal hlegal]
  constructor
  · intro hraise
    cases hs : sizer s.config s.plen.toNat with
    | none => rfl
    | some p =>
      rw [exec_create_of_sizer_some (v := p.1) (e := p.2) h0 hs] at hraise
      have hphase : Phase.uninit = Phase.failed :=
        congrArg State.phase (Host.Outcome.next.inj hraise)
      exact absurd hphase (by decide)
  · exact exec_create_of_sizer_none h0

/-- The spec's table of R90: lengths `lo` to `hi`, then version, level, capacity and side. -/
def selectionTable : List (Nat × Nat × Nat × Nat × Nat × Nat) :=
  [(1, 4, 1, 3, 7, 21), (5, 8, 1, 2, 11, 21), (9, 11, 1, 1, 14, 21),
    (12, 14, 1, 0, 17, 21), (15, 17, 2, 2, 20, 25), (18, 23, 2, 1, 26, 25),
    (24, 29, 2, 0, 32, 25), (30, 39, 3, 1, 42, 29), (40, 50, 3, 0, 53, 29),
    (51, 59, 4, 1, 62, 33), (60, 75, 4, 0, 78, 33), (76, 81, 5, 1, 84, 37),
    (82, 103, 5, 0, 106, 37), (104, 131, 6, 0, 134, 41), (132, 151, 7, 0, 154, 45),
    (152, 189, 8, 0, 192, 49), (190, 227, 9, 0, 230, 53), (228, 268, 10, 0, 271, 57)]

/-- The capacity of the row's pair holds the row's greatest length, and no pair before it in the
search order holds the row's least length. -/
def rowSelected (c : Config) : Nat × Nat × Nat × Nat × Nat × Nat → Bool
  | (lo, hi, v, e, cap, n) =>
    decide (1 ≤ lo ∧ capAt? c v e = some cap ∧ hi + 3 ≤ cap ∧ n = sizeOfVersion v ∧
      ∀ p ∈ sizerOrder, p.1 < v ∨ p.1 = v ∧ e < p.2 → (capAt? c p.1 p.2).getD 0 < lo + 3)

theorem selectionTable_selected : selectionTable.all (rowSelected defaultConfig) = true := by
  decide +kernel

theorem capAt?_congr {c c' : Config} (h : c.cap = c'.cap) (v e : Nat) :
    capAt? c v e = capAt? c' v e := by
  simp only [capAt?, h]

/-- What a row of the table says about the sizer, for every length of the row. -/
theorem sizer_of_selectionTable {c : Config} (h : c.cap = defaultCap) {lo hi v e cap n l : Nat}
    (hrow : (lo, hi, v, e, cap, n) ∈ selectionTable) (hlo : lo ≤ l) (hhi : l ≤ hi) :
    1 ≤ l ∧ sizer c l = some (v, e) ∧ capAt? c v e = some cap ∧ n = sizeOfVersion v := by
  have hsel := List.all_eq_true.mp selectionTable_selected _ hrow
  simp only [rowSelected, decide_eq_true_eq] at hsel
  obtain ⟨hpos, hcap, hfit, hn, hbefore⟩ := hsel
  have hdefault : ∀ v e, capAt? c v e = capAt? defaultConfig v e := capAt?_congr h
  refine ⟨by omega, sizer_eq_some.mpr ⟨⟨cap, (hdefault v e).trans hcap, by omega⟩, ?_⟩,
    (hdefault v e).trans hcap, hn⟩
  intro v' e' cap' hcap' hlt
  obtain ⟨hv', he', -⟩ := capAt?_eq_some hcap'
  have hless := hbefore (v', e') (mem_sizerOrder.mpr ⟨hv', he'⟩) hlt
  rw [hdefault] at hcap'
  rw [hcap', Option.getD_some] at hless
  omega

/-- Settles O20: one row of the table each, and no capacity for a length above 268. -/
theorem defaultSelectionForEveryLength : Obligations.DefaultSelectionForEveryLength := by
  intro s hs
  constructor
  · intro lo hi v e c n hrow hlo hhi
    obtain ⟨hpos, hsizer, hcap, rfl⟩ := sizer_of_selectionTable hs hrow hlo hhi
    obtain ⟨hv, he, -⟩ := capAt?_eq_some hcap
    have h0 : s.plen ≠ 0 := fun h0 => by simp [h0] at hpos
    exact ⟨s.created v e, exec_create_of_sizer_some h0 hsizer, s.created_version_toNat e hv,
      s.created_level_toNat v he, hcap, s.created_size_toNat e hv, rfl⟩
  · intro hlong
    have h0 : s.plen ≠ 0 := fun h0 => by simp [h0] at hlong
    exact exec_create_of_sizer_none h0 (sizer_eq_none_of_long s.config hlong)

/-! What a created symbol's registers hold, for a pair that the sizer answers (R87 to R89). -/

section
variable {s : State} {v e : Nat} (hs : sizer s.config s.plen.toNat = some (v, e))
include hs

theorem State.created_version_bounds :
    1 ≤ (s.created v e).version.toNat ∧ (s.created v e).version.toNat ≤ 10 := by
  obtain ⟨⟨c, hc, -⟩, -⟩ := sizer_eq_some.mp hs
  obtain ⟨hv, -, -⟩ := capAt?_eq_some hc
  rwa [s.created_version_toNat e hv]

theorem State.created_size_eq :
    (s.created v e).size.toNat = sizeOfVersion (s.created v e).version.toNat := by
  obtain ⟨⟨c, hc, -⟩, -⟩ := sizer_eq_some.mp hs
  obtain ⟨hv, -, -⟩ := capAt?_eq_some hc
  rw [s.created_size_toNat e hv, s.created_version_toNat e hv]

theorem State.created_capacity :
    ∃ c, capAt? s.config (s.created v e).version.toNat (s.created v e).level.toNat = some c ∧
      s.plen.toNat + 3 ≤ c := by
  obtain ⟨⟨c, hc, hfit⟩, -⟩ := sizer_eq_some.mp hs
  obtain ⟨hv, he, -⟩ := capAt?_eq_some hc
  rw [s.created_version_toNat e hv, s.created_level_toNat v he]
  exact ⟨c, hc, hfit⟩

end

/-- Settles O21: only the third outcome of `CREATE` is in `UNINIT`; `ERR` is 0 by the invariant. -/
theorem createEstablishesSymbol : Obligations.CreateEstablishesSymbol := by
  intro s t hinv hphase hexec huninit
  obtain ⟨-, rfl⟩ | ⟨-, -, rfl⟩ | ⟨h0, v, e, hs, rfl⟩ := execCreate_cases hexec
  · exact absurd huninit (by rw [State.raise_phase]; decide)
  · exact absurd huninit (by rw [State.raise_phase]; decide)
  · obtain ⟨c, hc, hfit⟩ := State.created_capacity hs
    obtain ⟨-, -, hcap⟩ := capAt?_eq_some hc
    have hpos : s.plen.toNat ≠ 0 := fun h => h0 (BitVec.eq_of_toNat_eq h)
    have herr : s.err = 0 := by
      by_contra hne
      exact absurd (hphase.symm.trans (hinv.errIffFailed.mp hne)) (by decide)
    exact ⟨State.created_version_bounds hs, by omega, State.created_size_eq hs, rfl, rfl, rfl,
      ⟨c, hc, hfit⟩, ⟨Nat.pos_of_ne_zero hpos, Nat.le_of_add_le_add_right (hfit.trans hcap)⟩,
      fun x hx y hy => ⟨s.created_mgAt v e hx hy, s.created_fgAt v e hx hy⟩, herr, rfl, rfl, rfl⟩

end Sys2Proof.Machine

/-! ## The invariant: what keeps it, one lemma per update (R15, R18, R21, R28, R70, R89, R101) -/

namespace Sys2Proof.Machine

/-- Without a symbol the clauses about its registers, the grids and the codewords say nothing. -/
theorem State.Inv.of_noSymbol {s : State} (hconfig : configLegal s.config = true)
    (hmem : Memory.wf 268 s.pbuf ∧ Memory.wf 271 s.cw ∧ s.mg.wf ∧ s.fg.wf)
    (hphase : s.phase.toNat ≤ 1 ∨ s.phase.toNat = 8)
    (herr : s.err ≠ 0 ↔ s.phase = Phase.failed) (hno : s.noSymbol)
    (hidle : s.phase = Phase.idle → s.plen = 0) : s.Inv where
  config := hconfig
  memories := hmem
  phaseLegal := by omega
  errIffFailed := herr
  noSymbol := fun _ => hno
  idlePlen := hidle
  symbol := fun hs => by omega
  maskZero := fun _ => by
    obtain ⟨-, -, -, hmask, -, -⟩ := hno
    exact hmask
  gridsWritten := fun hs => by omega
  cleared := fun hp => by rw [hp] at hphase; exact absurd hphase (by decide)
  freeCellsLight := fun hp => by
    rcases hp with hp | hp <;> rw [hp] at hphase <;> exact absurd hphase (by decide)
  codewords := fun hs => by omega

theorem State.Inv.pbuf_wf {s : State} (h : s.Inv) : Memory.wf 268 s.pbuf := by
  obtain ⟨hpbuf, -, -, -⟩ := h.memories
  exact hpbuf

theorem State.Inv.cw_wf {s : State} (h : s.Inv) : Memory.wf 271 s.cw := by
  obtain ⟨-, hcw, -, -⟩ := h.memories
  exact hcw

/-- An update of the memories and of `MASK` that goes on to a later phase of the same symbol. -/
theorem State.Inv.of_symbol {s : State} (h : s.Inv) (hs : s.holdsSymbol) {p : Nibble}
    {m : BitVec 3} {cw : Memory} {mg fg : Grid} (hp : 3 ≤ p.toNat ∧ p.toNat ≤ 7)
    (hcw : Memory.wf 271 cw) (hmg : mg.full) (hfg : fg.full) (hmask : p.toNat ≤ 5 → m = 0)
    (hlight : p.toNat ≤ 4 → ∀ x < 57, ∀ y < 57, fg.read (Config.freeFg s.epoch) x y = false →
      mg.read (Config.freeMg s.epoch) x y = false)
    (hcodewords : 4 ≤ p.toNat → ∀ j < (capAt? s.config s.version.toNat s.level.toNat).getD 0,
      (Memory.find cw j).isSome = true) :
    State.Inv { s with phase := p, mask := m, cw := cw, mg := mg, fg := fg } where
  config := h.config
  memories := ⟨h.pbuf_wf, hcw, Grid.wf_of_full hmg, Grid.wf_of_full hfg⟩
  phaseLegal := by simp only; omega
  errIffFailed := by
    have hne : s.phase ≠ Phase.failed := fun heq => by
      rw [State.holdsSymbol, heq] at hs; exact absurd hs (by decide)
    have hne' : p ≠ Phase.failed := fun heq => by rw [heq] at hp; exact absurd hp (by decide)
    exact iff_of_false (fun herr => hne (h.errIffFailed.mp herr)) hne'
  noSymbol := fun hno => by
    rcases hno with hno | rfl
    · simp only at hno; omega
    · exact absurd hp (by decide)
  idlePlen := fun heq => by simp only at heq; rw [heq] at hp; exact absurd hp (by decide)
  symbol := fun _ => h.symbol hs
  maskZero := hmask
  gridsWritten := fun _ => ⟨hmg, hfg⟩
  cleared := fun heq => by simp only at heq; rw [heq] at hp; exact absurd hp (by decide)
  freeCellsLight := fun heq => hlight (by rcases heq with rfl | rfl <;> decide)
  codewords := fun hle => hcodewords hle.1

/-- The script and the two fields of the read port play no part. -/
theorem State.Inv.of_port_and_script {s : State} (h : s.Inv) (dark : Bool) (reads : Nat)
    (lines : List Line) :
    State.Inv { s with rdDark := dark, anyReads := reads, script := lines } :=
  ⟨h.config, h.memories, h.phaseLegal, h.errIffFailed, h.noSymbol, h.idlePlen, h.symbol,
    h.maskZero, h.gridsWritten, h.cleared, h.freeCellsLight, h.codewords⟩

theorem State.Inv.taken {s : State} (h : s.Inv) : s.taken.Inv :=
  h.of_port_and_script s.rdDark s.anyReads s.script.tail

theorem State.Inv.of_pbuf {s : State} (h : s.Inv) {pbuf : Memory} (hpbuf : Memory.wf 268 pbuf) :
    State.Inv { s with pbuf := pbuf } :=
  ⟨h.config, ⟨hpbuf, h.memories.2⟩, h.phaseLegal, h.errIffFailed, h.noSymbol, h.idlePlen, h.symbol,
    h.maskZero, h.gridsWritten, h.cleared, h.freeCellsLight, h.codewords⟩

/-! ## Host events and reads keep the invariant (R73 to R79) -/

theorem State.Inv.clearRegisters {s : State} (h : s.Inv) : s.clearRegisters.Inv :=
  .of_noSymbol h.config h.memories (.inl (by simp))
    (by simp [Phase.idle, Phase.failed]) ⟨rfl, rfl, rfl, rfl, rfl, rfl⟩
    fun _ => rfl

theorem State.Inv.afterReset {s : State} (h : s.Inv) : s.afterReset.Inv :=
  .of_noSymbol h.config ⟨Memory.wf_nil _, Memory.wf_nil _, Grid.wf_unwritten, Grid.wf_unwritten⟩
    (.inl (by simp [State.afterReset])) (by simp [State.afterReset, Phase.idle, Phase.failed])
    ⟨rfl, rfl, rfl, rfl, rfl, rfl⟩ fun _ => rfl

theorem State.Inv.err_eq_zero {s : State} (h : s.Inv) (hp : s.phase ≠ Phase.failed) : s.err = 0 :=
  not_not.mp fun herr => hp (h.errIffFailed.mp herr)

theorem State.Inv.started {s : State} (h : s.Inv) (hidle : s.phase = Phase.idle) (n : BitVec 16) :
    State.Inv { s with plen := n, phase := Phase.started } := by
  have herr := h.err_eq_zero (by rw [hidle]; decide)
  refine .of_noSymbol h.config h.memories (.inl (by simp)) ?_ (h.noSymbol (.inl ?_)) ?_
  · simp [herr, Phase.started, Phase.failed]
  · simp [hidle]
  · simp [Phase.started, Phase.idle]

theorem State.Inv.exec_decodeH {s : State} (h : s.Inv) (p : HostPorts) :
    ∃ t, exec (decodeH p) s = .next t ∧ t.Inv := by
  obtain hd | hd | hd | hd | hd := decodeH_cases p <;> rw [hd]
  · exact ⟨_, exec_reset s, h.afterReset⟩
  · refine ⟨_, exec_clear s, ?_⟩
    split
    · exact h.clearRegisters
    · exact h
  · refine ⟨_, exec_start _ s, ?_⟩
    split
    · exact h.started ‹_› _
    · exact h
  · refine ⟨_, exec_pwrite _ _ s, ?_⟩
    split
    · rename_i hacc
      exact h.of_pbuf (Memory.wf_write h.pbuf_wf _ hacc.2)
    · exact h
  · exact ⟨_, exec_noph s, h⟩

theorem State.Inv.exec_rdcell {s : State} (h : s.Inv) (x y : Nat) :
    ∃ t, exec (.rdcell x y) s = .next t ∧ t.Inv := by
  obtain ⟨dark, reads, hread⟩ := exec_rdcell_eq_next x y s
  exact ⟨_, hread, h.of_port_and_script dark reads s.script⟩

/-! ## `MASK` and `FORMAT` where the side is in range (R118, R129) -/

/-- What the trials of the eight candidates leave: the grid and the best pair (R118). -/
def State.trials (s : State) : Grid × Option (Nat × Nat) :=
  tryMasks s.fgAt (Config.freeMg s.epoch) s.size.toNat (List.range 8) s.mg none

/-- The state after the chosen mask is applied and recorded (R125, R126). -/
def State.masked (s : State) : State :=
  { s with
    mg := applyMask s.fgAt (Config.freeMg s.epoch) s.size.toNat (bestIndex s.trials.2) s.trials.1
    mask := BitVec.ofNat 3 (bestIndex s.trials.2)
    phase := Phase.masked }

theorem exec_mask_of_size_le {s : State} (hn : s.size.toNat ≤ 57) :
    exec .mask s = .next s.masked :=
  execMask_eq_next.mpr ⟨hn, rfl⟩

/-- The writes of `FORMAT` for the registers and the configuration of the state (R129, R130). -/
def State.formatWrites (s : State) : List CellWrite :=
  Machine.formatWrites s.size.toNat (fmtAt s.config s.level s.mask) s.config.fmtCopy2

/-- The state after the format writes. -/
def State.formatted (s : State) : State := s.drawn s.formatWrites Phase.formatEmbedded

theorem State.formatWrites_inWindow {s : State} (hlo : 21 ≤ s.size.toNat)
    (hhi : s.size.toNat ≤ 57) : s.formatWrites.all (CellWrite.inWindow s.size.toNat) = true :=
  Machine.formatWrites_inWindow (by omega) hhi _ _

theorem exec_format_of_size {s : State} (hlo : 21 ≤ s.size.toNat) (hhi : s.size.toNat ≤ 57) :
    exec .format s = .next s.formatted :=
  execFormat_eq_next.mpr ⟨State.formatWrites_inWindow hlo hhi, rfl⟩

/-! ## The sequencer's operations keep the invariant, each in its phase (R83 to R137) -/

/-- The phases in which the sequencer has an operation on a symbol (R58). -/
theorem operation_phase_cases {p : Nibble} (hlo : 2 ≤ p.toNat) (hhi : p.toNat ≤ 6) :
    p = Phase.uninit ∨ p = Phase.patternsPlaced ∨ p = Phase.dataEncoded ∨ p = Phase.dataPlaced ∨
      p = Phase.masked := by
  bv_omega

theorem legal_phase_cases {p : Nibble} (h : p.toNat ≤ 8) :
    p = Phase.idle ∨ p = Phase.started ∨ (2 ≤ p.toNat ∧ p.toNat ≤ 6) ∨ p = Phase.formatEmbedded ∨
      p = Phase.failed := by
  bv_omega

/-- A failure before a symbol exists. -/
theorem State.Inv.raise {s : State} (h : s.Inv) (hp : s.phase.toNat ≤ 1) (k : ErrorKind) :
    (s.raise k).Inv := by
  refine .of_noSymbol h.config h.memories (.inr rfl) ?_ (h.noSymbol (.inl hp)) ?_
  · cases k <;> simp [ErrorKind.code]
  · simp [Phase.failed, Phase.idle]

theorem State.Inv.created {s : State} (h : s.Inv) (hp : s.phase = Phase.started) {v e : Nat}
    (h0 : s.plen ≠ 0) (hs : sizer s.config s.plen.toNat = some (v, e)) : (s.created v e).Inv where
  config := h.config
  memories := ⟨h.pbuf_wf, h.cw_wf, Grid.wf_cleared, Grid.wf_cleared⟩
  phaseLegal := by simp [State.created]
  errIffFailed := by
    have herr := h.err_eq_zero (by rw [hp]; decide)
    simp [State.created, herr, Phase.uninit, Phase.failed]
  noSymbol := by simp [State.created, Phase.uninit, Phase.failed]
  idlePlen := by simp [State.created, Phase.uninit, Phase.idle]
  symbol := fun _ => by
    obtain ⟨c, hc, hfit⟩ := State.created_capacity hs
    refine ⟨State.created_version_bounds hs, State.created_size_eq hs, rfl, rfl, h0, ?_⟩
    exact hfit.trans (by rw [show (s.created v e).config = s.config from rfl, hc]; rfl)
  maskZero := fun _ => rfl
  gridsWritten := fun _ => ⟨Grid.full_cleared, Grid.full_cleared⟩
  cleared := fun _ x hx y hy => ⟨s.created_mgAt v e hx hy, s.created_fgAt v e hx hy⟩
  freeCellsLight := by
    simp [State.created, Phase.uninit, Phase.patternsPlaced, Phase.dataEncoded]
  codewords := by simp [State.created]

section
variable {s : State} (h : s.Inv)
include h

theorem State.Inv.exec_create (hp : s.phase = Phase.started) :
    ∃ t, exec .create s = .next t ∧ t.Inv := by
  obtain ⟨t, ht⟩ := execCreate_completes s
  have hle : s.phase.toNat ≤ 1 := by simp [hp]
  obtain ⟨-, rfl⟩ | ⟨-, -, rfl⟩ | ⟨h0, v, e, hs, rfl⟩ := execCreate_cases ht
  · exact ⟨_, ht, h.raise hle _⟩
  · exact ⟨_, ht, h.raise hle _⟩
  · exact ⟨_, ht, h.created hp h0 hs⟩

/-- The symbol of the invariant is one `PATTERN` can draw (R92). -/
theorem State.Inv.patternReady (hs : s.holdsSymbol) : s.patternReady := by
  obtain ⟨hv, hn, hm, hf, -, -⟩ := h.symbol hs
  exact ⟨h.config, hv, hn, hm, hf⟩

theorem State.Inv.size_bounds (hs : s.holdsSymbol) : 21 ≤ s.size.toNat ∧ s.size.toNat ≤ 57 :=
  (h.patternReady hs).size_bounds

theorem State.Inv.capacity (hs : s.holdsSymbol) :
    ∃ c, capAt? s.config s.version.toNat s.level.toNat = some c ∧ s.plen.toNat + 3 ≤ c := by
  obtain ⟨-, -, -, -, -, hfit⟩ := h.symbol hs
  cases hc : capAt? s.config s.version.toNat s.level.toNat with
  | none => simp [hc] at hfit
  | some c => exact ⟨c, rfl, by simpa [hc] using hfit⟩

theorem State.Inv.patterned (hp : s.phase = Phase.uninit) : s.patterned.Inv := by
  have hs : s.holdsSymbol := by simp [State.holdsSymbol, hp]
  obtain ⟨hmg, hfg⟩ := h.gridsWritten hs
  have hws := (h.patternReady hs).writes_inWindow
  refine h.of_symbol hs (by decide) h.cw_wf (foldl_set_full _ _ hmg)
    (foldl_set_full _ _ hfg) (fun _ => h.maskZero (by simp [hp])) (fun _ x hx y hy hfree => ?_)
    (fun hle => absurd hle (by decide))
  -- A cell that is free after the writes was written by none of them.
  have hmark := s.setfAll_fgAt hws (y := y) hx
  rw [show (s.setfAll s.patternWrites).fgAt x y = false from hfree] at hmark
  have hnone : lastWrite s.patternWrites x y = none := by
    rw [lastWrite_eq_none]
    intro w hw hxy
    rw [decide_eq_true ⟨w, hw, hxy⟩, Bool.true_or] at hmark
    cases hmark
  have hcell := s.setfAll_mgAt hws (y := y) hx
  rw [hnone, Option.getD_none, (h.cleared hp x hx y hy).1] at hcell
  exact hcell

theorem State.Inv.encoded (hp : s.phase = Phase.patternsPlaced) {c : Nat}
    (hc : capAt? s.config s.version.toNat s.level.toNat = some c) : (s.encoded c).Inv := by
  have hs : s.holdsSymbol := by simp [State.holdsSymbol, hp]
  obtain ⟨hmg, hfg⟩ := h.gridsWritten hs
  obtain ⟨-, -, hcap⟩ := capAt?_eq_some hc
  refine h.of_symbol hs (by decide) (Memory.wf_writeFrom h.cw_wf _ _ (by simpa)) hmg hfg
    (fun _ => h.maskZero (by simp [hp])) (fun _ => h.freeCellsLight (.inl hp)) (fun _ j hj => ?_)
  rw [hc, Option.getD_some] at hj
  rw [Memory.find_writeFrom, length_packBytes, if_pos (by omega), Nat.sub_zero,
    getElem?_packBytes _ hj]
  rfl

theorem State.Inv.placed (hp : s.phase = Phase.dataEncoded) (c : Nat) : (s.placed c).Inv := by
  have hs : s.holdsSymbol := by simp [State.holdsSymbol, hp]
  obtain ⟨hmg, hfg⟩ := h.gridsWritten hs
  exact h.of_symbol hs (by decide) h.cw_wf (placeCells_full _ _ _ _ hmg) hfg
    (fun _ => h.maskZero (by simp [hp])) (fun hle => absurd hle (by decide))
    (fun _ => h.codewords (by simp [hp]))

theorem State.Inv.masked (hp : s.phase = Phase.dataPlaced) : s.masked.Inv := by
  have hs : s.holdsSymbol := by simp [State.holdsSymbol, hp]
  obtain ⟨hmg, hfg⟩ := h.gridsWritten hs
  exact h.of_symbol hs (by decide) h.cw_wf
    (applyMask_full _ _ _ _ (tryMasks_full _ _ _ _ _ hmg)) hfg
    (fun hle => absurd hle (by decide)) (fun hle => absurd hle (by decide))
    (fun _ => h.codewords (by simp [hp]))

theorem State.Inv.formatted (hp : s.phase = Phase.masked) : s.formatted.Inv := by
  have hs : s.holdsSymbol := by simp [State.holdsSymbol, hp]
  obtain ⟨hmg, hfg⟩ := h.gridsWritten hs
  exact h.of_symbol hs (by decide) h.cw_wf (foldl_set_full _ _ hmg)
    (foldl_set_full _ _ hfg) (fun hle => absurd hle (by decide))
    (fun hle => absurd hle (by decide)) (fun _ => h.codewords (by simp [hp]))

/-- From `UNINIT` to `MASKED` the operation that `PHASE` selects completes, and keeps the
invariant. -/
theorem State.Inv.exec_decodeS_of_symbol (hlo : 2 ≤ s.phase.toNat) (hhi : s.phase.toNat ≤ 6) :
    ∃ t, exec (decodeS s.phase) s = .next t ∧ t.Inv ∧ t.phase = s.phase + 1 := by
  have hs : s.holdsSymbol := ⟨hlo, by omega⟩
  obtain ⟨hn21, hn57⟩ := h.size_bounds hs
  obtain ⟨c, hc, hfit⟩ := h.capacity hs
  obtain hp | hp | hp | hp | hp := operation_phase_cases hlo hhi <;> rw [hp]
  · exact ⟨_, (h.patternReady hs).exec_pattern, h.patterned hp, rfl⟩
  · exact ⟨_, exec_encode_of_fits hc hfit, h.encoded hp hc, rfl⟩
  · exact ⟨_, exec_place_of_size_le hc hn57, h.placed hp c, rfl⟩
  · exact ⟨_, exec_mask_of_size_le hn57, h.masked hp, rfl⟩
  · exact ⟨_, exec_format_of_size hn21 hn57, h.formatted hp, rfl⟩

theorem State.Inv.exec_decodeS : ∃ t, exec (decodeS s.phase) s = .next t ∧ t.Inv := by
  obtain hp | hp | ⟨hlo, hhi⟩ | hp | hp := legal_phase_cases h.phaseLegal
  · exact ⟨s, by rw [hp]; rfl, h⟩
  · rw [hp]
    exact h.exec_create hp
  · obtain ⟨t, ht, hinv, -⟩ := h.exec_decodeS_of_symbol hlo hhi
    exact ⟨t, ht, hinv⟩
  · exact ⟨s, by rw [hp]; rfl, h⟩
  · exact ⟨s, by rw [hp]; rfl, h⟩

/-- Every step from a state of the invariant completes in a state of the invariant. -/
theorem State.Inv.step : ∃ t, step s = .next t ∧ t.Inv := by
  obtain ⟨-, hs⟩ | ⟨p, -, hs⟩ | ⟨x, y, -, hs⟩ := step_cases s <;> rw [hs]
  · exact h.taken.exec_decodeS
  · exact h.taken.exec_decodeH p
  · exact h.taken.exec_rdcell x.toNat y.toNat

end

/-- Settles O48: the step answers one next state, and that one meets the invariant. -/
theorem stepKeepsInvariant : Obligations.StepKeepsInvariant := by
  intro s t hinv hstep
  obtain ⟨t', hstep', hinv'⟩ := hinv.step
  cases hstep.symm.trans hstep'
  exact hinv'

/-- Settles O49: every instruction a state of the invariant can present completes there. -/
theorem invariantStateAlwaysSteps : Obligations.InvariantStateAlwaysSteps := by
  intro s hinv
  obtain ⟨t, hstep, -⟩ := hinv.step
  exact ⟨t, hstep⟩

/-- Settles O47: the default tables are legal, and no symbol exists. -/
theorem resetMeetsInvariant : Obligations.ResetMeetsInvariant := by
  have hlegal : configLegal State.reset.config = true := by decide +kernel
  exact .of_noSymbol hlegal
    ⟨Memory.wf_nil _, Memory.wf_nil _, Grid.wf_unwritten, Grid.wf_unwritten⟩ (.inl (by decide))
    (by decide) ⟨rfl, rfl, rfl, rfl, rfl, rfl⟩ fun _ => rfl

end Sys2Proof.Machine

/-! ## A run of the sequencer by itself (R82; log 1) -/

namespace Sys2Proof.Machine

theorem core_run_succ {u v : core.State} (h : core.step u = .next v) (k : Nat) :
    core.run (k + 1) u = core.run k v := by
  simp only [Host.Core.run, h]

theorem runSteps_succ {s t : State} (h : step s = .next t) (k : Nat) :
    runSteps (k + 1) s = runSteps k t :=
  core_run_succ h k

theorem step_of_script_nil {s : State} (h : s.script = []) : step s = exec (decodeS s.phase) s := by
  rw [step, State.fetch_nil h, decode]

/-- From `UNINIT` on, each step goes one phase forward, up to `FORMAT_EMBEDDED`. -/
theorem State.Inv.runSteps_of_symbol (k : Nat) {s : State} (h : s.Inv) (hscript : s.script = [])
    (hlo : 2 ≤ s.phase.toNat) (hhi : s.phase.toNat + k ≤ 7) :
    ∃ t, runSteps k s = .next t ∧ t.Inv ∧ t.phase.toNat = s.phase.toNat + k := by
  induction k generalizing s with
  | zero => exact ⟨s, rfl, h, rfl⟩
  | succ k ih =>
    obtain ⟨u, hu, hinv, hphase⟩ := h.exec_decodeS_of_symbol hlo (by omega)
    have hnext : u.phase.toNat = s.phase.toNat + 1 := by rw [hphase]; bv_omega
    obtain ⟨t, ht, htinv, htphase⟩ :=
      ih hinv ((exec_kept hu).script.trans hscript) (by omega) (by omega)
    exact ⟨t, (runSteps_succ ((step_of_script_nil hscript).trans hu) k).trans ht, htinv, by omega⟩

/-- A payload of 1 to 268 bytes has a symbol, since one capacity is 271 (R86). -/
theorem State.Inv.exists_created {s : State} (h : s.Inv) (hp : s.phase = Phase.started)
    (hlo : 1 ≤ s.plen.toNat) (hhi : s.plen.toNat ≤ 268) :
    ∃ v e, exec .create s = .next (s.created v e) ∧ (s.created v e).Inv := by
  have h0 : s.plen ≠ 0 := fun h0 => by simp [h0] at hlo
  cases hs : sizer s.config s.plen.toNat with
  | none => have := (sizer_eq_none_iff_of_legal h.config).mp hs; omega
  | some p => exact ⟨p.1, p.2, exec_create_of_sizer_some h0 hs, h.created hp h0 hs⟩

theorem State.busy_of_phase_bounds {s : State} (hlo : 1 ≤ s.phase.toNat) (hhi : s.phase.toNat ≤ 6) :
    s.busy = true := by
  rw [s.busy_iff]
  bv_omega

/-- Settles O54: `CREATE` finds a symbol for exactly these lengths, and then five steps go one phase
forward each. -/
theorem runEndsInSixStepsOrFailsInOne : Obligations.RunEndsInSixStepsOrFailsInOne := by
  intro s hinv hp hscript
  have hcreate : step s = exec .create s := by rw [step_of_script_nil hscript, hp]; rfl
  have hfail {k : ErrorKind} (hk : exec .create s = .next (s.raise k)) :
      ∃ t, runSteps 1 s = .next t ∧ t.phase = Phase.failed ∧ t.err = k.code :=
    ⟨_, runSteps_succ (hcreate.trans hk) 0, rfl, rfl⟩
  refine ⟨fun hlo hhi => ?_, fun h0 => hfail (exec_create_of_plen_zero h0), fun hlong => ?_⟩
  · obtain ⟨v, e, hc, hcinv⟩ := hinv.exists_created hp hlo hhi
    have hrun (k : Nat) (hk : k ≤ 5) : ∃ t, runSteps (k + 1) s = .next t ∧ t.Inv ∧
        t.phase.toNat = 2 + k := by
      rw [runSteps_succ (hcreate.trans hc)]
      exact hcinv.runSteps_of_symbol k hscript (by simp [State.created])
        (by simp [State.created]; omega)
    constructor
    · obtain ⟨t, ht, htinv, htphase⟩ := hrun 5 (by decide)
      have hdone : t.phase = Phase.formatEmbedded := BitVec.eq_of_toNat_eq htphase
      exact ⟨t, ht, hdone, htinv.err_eq_zero (by rw [hdone]; decide)⟩
    · intro k hk
      cases k with
      | zero => exact ⟨s, rfl, State.busy_of_phase_bounds (by simp [hp]) (by simp [hp])⟩
      | succ k =>
        obtain ⟨t, ht, -, htphase⟩ := hrun k (by omega)
        exact ⟨t, ht, State.busy_of_phase_bounds (by omega) (by omega)⟩
  · have h0 : s.plen ≠ 0 := fun h0 => by simp [h0] at hlong
    exact hfail (exec_create_of_sizer_none h0 (sizer_eq_none_of_long s.config hlong))

end Sys2Proof.Machine

/-! ## Congruence of `PLACE` and `MASK`: on a wholly written grid they depend on the marks of the
window alone, not on the free values (R152; log 5) -/

namespace Sys2Proof.Machine

theorem placeCells_congr {fg fg' : Nat → Nat → Bool} (bit : Nat → Bool) {l : List (Nat × Nat)}
    (hfg : ∀ c ∈ l, fg c.1 c.2 = fg' c.1 c.2) (k : Nat) (g : Grid) :
    placeCells fg bit l k g = placeCells fg' bit l k g := by
  induction l generalizing k g with
  | nil => rfl
  | cons c l ih =>
    obtain ⟨hc, hl⟩ := List.forall_mem_cons.mp hfg
    obtain ⟨x, y⟩ := c
    simp only [placeCells, ← hc, ih hl]

theorem toggleCell_full (fg : Nat → Nat → Bool) (free : Nat → Bool) (m : Nat) {g : Grid}
    (h : g.full) (c : Nat × Nat) : (toggleCell fg free m g c).full := by
  unfold toggleCell
  split
  · exact Grid.full_set h _ _ _
  · exact h

section
variable {fg fg' : Nat → Nat → Bool} {n : Nat} (hn : n ≤ 57)
  (hfg : ∀ x < n, ∀ y < n, fg x y = fg' x y) (free free' : Nat → Bool)
include hn hfg

theorem toggleCell_congr (m : Nat) {g : Grid} (hg : g.full) {c : Nat × Nat}
    (hc : c.1 < n ∧ c.2 < n) : toggleCell fg free m g c = toggleCell fg' free' m g c := by
  rw [toggleCell, toggleCell, hfg c.1 hc.1 c.2 hc.2,
    Grid.read_of_full hg free free' (hc.1.trans_le hn) (hc.2.trans_le hn)]

theorem applyMask_congr (m : Nat) {g : Grid} (hg : g.full) :
    applyMask fg free n m g = applyMask fg' free' n m g := by
  have hcells : ∀ c ∈ windowCells n, c.1 < n ∧ c.2 < n := fun _ => mem_windowCells.mp
  unfold applyMask
  generalize windowCells n = l at hcells ⊢
  induction l generalizing g with
  | nil => rfl
  | cons c l ih =>
    obtain ⟨hc, hl⟩ := List.forall_mem_cons.mp hcells
    rw [List.foldl_cons, List.foldl_cons, ih (toggleCell_full fg free m hg c) hl,
      toggleCell_congr hn hfg free free' m hg hc]

theorem tryMasks_congr (l : List Nat) {g : Grid} (hg : g.full) (best : Option (Nat × Nat)) :
    tryMasks fg free n l g best = tryMasks fg' free' n l g best := by
  induction l generalizing g best with
  | nil => rfl
  | cons m l ih =>
    have hmasked := applyMask_full fg free n m hg
    have hpen : penalty free n (applyMask fg free n m g) =
        penalty free' n (applyMask fg free n m g) :=
      penalty_congr fun x hx y hy =>
        Grid.read_of_full hmasked free free' (hx.trans_le hn) (hy.trans_le hn)
    rw [tryMasks, tryMasks, ih (applyMask_full fg free n m hmasked), hpen,
      applyMask_congr hn hfg free free' m hg,
      applyMask_congr hn hfg free free' m (applyMask_congr hn hfg free free' m hg ▸ hmasked)]

end

/-! ## Two runs of one payload (R152) -/

/-- Two states that a run of the same payload and configuration goes through in step: the registers
agree, the grids from `CREATE` on, the codewords from `ENCODE` on. -/
structure SameRun (s s' : State) : Prop where
  config : s.config = s'.config
  phase : s.phase = s'.phase
  err : s.err = s'.err
  version : s.version = s'.version
  level : s.level = s'.level
  size : s.size = s'.size
  mask : s.mask = s'.mask
  plen : s.plen = s'.plen
  mgdim : s.mgdim = s'.mgdim
  fgdim : s.fgdim = s'.fgdim
  payload : s.payload = s'.payload
  grids : s.holdsSymbol → s.mg = s'.mg ∧ s.fg = s'.fg
  codewords : 4 ≤ s.phase.toNat ∧ s.phase.toNat ≤ 7 →
    ∀ j < (capAt? s.config s.version.toNat s.level.toNat).getD 0, s.cwAt j = s'.cwAt j

theorem State.payload_congr {s s' : State} (hplen : s.plen = s'.plen)
    (hpbuf : ∀ a < s.plen.toNat, s.pbufAt a = s'.pbufAt a) : s.payload = s'.payload := by
  unfold State.payload
  rw [← hplen]
  exact List.map_congr_left fun a ha => hpbuf a (List.mem_range.mp ha)

section
variable {s s' : State} (h : SameRun s s')
include h

theorem SameRun.raise (k : ErrorKind) : SameRun (s.raise k) (s'.raise k) where
  config := h.config
  phase := rfl
  err := rfl
  version := h.version
  level := h.level
  size := h.size
  mask := h.mask
  plen := h.plen
  mgdim := h.mgdim
  fgdim := h.fgdim
  payload := h.payload
  grids := fun hs => absurd hs.2 (by simp)
  codewords := fun hs => absurd hs.2 (by simp)

theorem SameRun.created (v e : Nat) : SameRun (s.created v e) (s'.created v e) where
  config := h.config
  phase := rfl
  err := h.err
  version := rfl
  level := rfl
  size := rfl
  mask := rfl
  plen := h.plen
  mgdim := rfl
  fgdim := rfl
  payload := h.payload
  grids := fun _ => ⟨rfl, rfl⟩
  codewords := fun hs => absurd hs.1 (by simp [State.created])

/-- An operation on a symbol writes the phase, `MASK` and the memories only. -/
theorem SameRun.of_symbol {p : Nibble} {m m' : BitVec 3} {cw cw' : Memory} {mg mg' fg fg' : Grid}
    (hm : m = m') (hmg : mg = mg') (hfg : fg = fg')
    (hcw : 4 ≤ p.toNat → ∀ j < (capAt? s.config s.version.toNat s.level.toNat).getD 0,
      State.cwAt { s with cw := cw } j = State.cwAt { s' with cw := cw' } j) :
    SameRun { s with phase := p, mask := m, cw := cw, mg := mg, fg := fg }
      { s' with phase := p, mask := m', cw := cw', mg := mg', fg := fg' } where
  config := h.config
  phase := rfl
  err := h.err
  version := h.version
  level := h.level
  size := h.size
  mask := hm
  plen := h.plen
  mgdim := h.mgdim
  fgdim := h.fgdim
  payload := h.payload
  grids := fun _ => ⟨hmg, hfg⟩
  codewords := fun hle => hcw hle.1

theorem SameRun.fgAt_eq (hinv : s.Inv) (hs : s.holdsSymbol) {x y : Nat} (hx : x < 57)
    (hy : y < 57) : s.fgAt x y = s'.fgAt x y := by
  rw [State.fgAt, State.fgAt, ← (h.grids hs).2]
  exact Grid.read_of_full (hinv.gridsWritten hs).2 _ _ hx hy

theorem SameRun.mgAt_eq (hinv : s.Inv) (hs : s.holdsSymbol) {x y : Nat} (hx : x < 57)
    (hy : y < 57) : s.mgAt x y = s'.mgAt x y := by
  rw [State.mgAt, State.mgAt, ← (h.grids hs).1]
  exact Grid.read_of_full (hinv.gridsWritten hs).1 _ _ hx hy

theorem SameRun.patterned (hp : s.phase = Phase.uninit) : SameRun s.patterned s'.patterned := by
  obtain ⟨hmg, hfg⟩ := h.grids (by simp [State.holdsSymbol, hp])
  have hws : s.patternWrites = s'.patternWrites := by
    simp only [State.patternWrites, h.config, h.version, h.size]
  exact h.of_symbol h.mask (by rw [State.setfAll_mg, State.setfAll_mg, hws, hmg])
    (by rw [State.setfAll_fg, State.setfAll_fg, hws, hfg]) fun hle => absurd hle (by decide)

theorem SameRun.encoded (hp : s.phase = Phase.patternsPlaced) {c : Nat}
    (hc : capAt? s.config s.version.toNat s.level.toNat = some c) :
    SameRun (s.encoded c) (s'.encoded c) := by
  obtain ⟨hmg, hfg⟩ := h.grids (by simp [State.holdsSymbol, hp])
  refine h.of_symbol h.mask hmg hfg fun _ j hj => ?_
  rw [hc, Option.getD_some] at hj
  have hbyte := s.encoded_cwAt hj
  rw [h.payload, ← s'.encoded_cwAt hj] at hbyte
  exact hbyte

theorem SameRun.placed (hinv : s.Inv) (hp : s.phase = Phase.dataEncoded) {c : Nat}
    (hc : capAt? s.config s.version.toNat s.level.toNat = some c) :
    SameRun (s.placed c) (s'.placed c) := by
  have hs : s.holdsSymbol := by simp [State.holdsSymbol, hp]
  obtain ⟨hmg, hfg⟩ := h.grids hs
  have hcw := h.codewords (by simp [hp])
  refine h.of_symbol h.mask ?_ hfg fun _ => hcw
  have hbit : s.placedBit (8 * c) = s'.placedBit (8 * c) := by
    funext k
    unfold State.placedBit streamBit
    split
    · rw [hcw (k / 8) (by rw [hc, Option.getD_some]; omega)]
    · rfl
  rw [hbit, ← h.size, ← hmg]
  refine placeCells_congr _ (fun c hc => ?_) 0 s.mg
  have hn := (hinv.size_bounds hs).2
  obtain ⟨hx, hy⟩ := visits_inWindow hc
  exact h.fgAt_eq hinv hs (hx.trans_le hn) (hy.trans_le hn)

theorem SameRun.masked (hinv : s.Inv) (hp : s.phase = Phase.dataPlaced) :
    SameRun s.masked s'.masked := by
  have hs : s.holdsSymbol := by simp [State.holdsSymbol, hp]
  obtain ⟨hmg, hfg⟩ := h.grids hs
  have hn := (hinv.size_bounds hs).2
  have hfull := (hinv.gridsWritten hs).1
  have hmarks : ∀ x < s.size.toNat, ∀ y < s.size.toNat, s.fgAt x y = s'.fgAt x y :=
    fun x hx y hy => h.fgAt_eq hinv hs (hx.trans_le hn) (hy.trans_le hn)
  have htrials : s.trials = s'.trials := by
    rw [State.trials, State.trials, ← h.size, ← hmg]
    exact tryMasks_congr hn hmarks _ _ _ hfull _
  refine h.of_symbol (by rw [htrials]) ?_ hfg fun _ => h.codewords (by simp [hp])
  rw [← htrials, ← h.size]
  exact applyMask_congr hn hmarks _ _ _ (tryMasks_full _ _ _ _ _ hfull)

theorem SameRun.formatted (hp : s.phase = Phase.masked) : SameRun s.formatted s'.formatted := by
  obtain ⟨hmg, hfg⟩ := h.grids (by simp [State.holdsSymbol, hp])
  have hws : s.formatWrites = s'.formatWrites := by
    simp only [State.formatWrites, h.config, h.level, h.mask, h.size]
  exact h.of_symbol h.mask (by rw [State.setfAll_mg, State.setfAll_mg, hws, hmg])
    (by rw [State.setfAll_fg, State.setfAll_fg, hws, hfg]) fun _ => h.codewords (by simp [hp])

/-- `CREATE` answers the same for both runs: it reads the length and the tables. -/
theorem SameRun.exec_create :
    ∃ t t', exec .create s = .next t ∧ exec .create s' = .next t' ∧ SameRun t t' := by
  by_cases h0 : s.plen = 0
  · exact ⟨_, _, exec_create_of_plen_zero h0, exec_create_of_plen_zero (h.plen ▸ h0), h.raise _⟩
  · have h0' : s'.plen ≠ 0 := h.plen ▸ h0
    have hsizer : sizer s.config s.plen.toNat = sizer s'.config s'.plen.toNat := by
      rw [h.config, h.plen]
    cases hs : sizer s.config s.plen.toNat with
    | none =>
      exact ⟨_, _, exec_create_of_sizer_none h0 hs,
        exec_create_of_sizer_none h0' (hsizer.symm.trans hs), h.raise _⟩
    | some p =>
      exact ⟨_, _, exec_create_of_sizer_some h0 hs,
        exec_create_of_sizer_some h0' (hsizer.symm.trans hs), h.created p.1 p.2⟩

theorem SameRun.exec_decodeS_of_symbol (hinv : s.Inv) (hinv' : s'.Inv) (hlo : 2 ≤ s.phase.toNat)
    (hhi : s.phase.toNat ≤ 6) :
    ∃ t t', exec (decodeS s.phase) s = .next t ∧ exec (decodeS s.phase) s' = .next t' ∧
      SameRun t t' := by
  have hs : s.holdsSymbol := ⟨hlo, by omega⟩
  have hs' : s'.holdsSymbol := by rw [State.holdsSymbol, ← h.phase]; exact hs
  obtain ⟨hn21, hn57⟩ := hinv.size_bounds hs
  obtain ⟨hn21', hn57'⟩ := hinv'.size_bounds hs'
  obtain ⟨c, hc, hfit⟩ := hinv.capacity hs
  have hc' : capAt? s'.config s'.version.toNat s'.level.toNat = some c := by
    rw [← h.config, ← h.version, ← h.level, hc]
  obtain hp | hp | hp | hp | hp := operation_phase_cases hlo hhi <;> rw [hp]
  · exact ⟨_, _, (hinv.patternReady hs).exec_pattern, (hinv'.patternReady hs').exec_pattern,
      h.patterned hp⟩
  · exact ⟨_, _, exec_encode_of_fits hc hfit, exec_encode_of_fits hc' (h.plen ▸ hfit),
      h.encoded hp hc⟩
  · exact ⟨_, _, exec_place_of_size_le hc hn57, exec_place_of_size_le hc' hn57',
      h.placed hinv hp hc⟩
  · exact ⟨_, _, exec_mask_of_size_le hn57, exec_mask_of_size_le hn57', h.masked hinv hp⟩
  · exact ⟨_, _, exec_format_of_size hn21 hn57, exec_format_of_size hn21' hn57', h.formatted hp⟩

theorem SameRun.exec_decodeS (hinv : s.Inv) (hinv' : s'.Inv) :
    ∃ t t', exec (decodeS s.phase) s = .next t ∧ exec (decodeS s.phase) s' = .next t' ∧
      SameRun t t' := by
  obtain hp | hp | ⟨hlo, hhi⟩ | hp | hp := legal_phase_cases hinv.phaseLegal
  · rw [hp]; exact ⟨s, s', rfl, rfl, h⟩
  · rw [hp]; exact h.exec_create
  · exact h.exec_decodeS_of_symbol hinv hinv' hlo hhi
  · rw [hp]; exact ⟨s, s', rfl, rfl, h⟩
  · rw [hp]; exact ⟨s, s', rfl, rfl, h⟩

end

/-- Two such runs stay in step, whatever the number of steps. -/
theorem SameRun.runSteps (k : Nat) {s s' : State} (h : SameRun s s') (hinv : s.Inv)
    (hinv' : s'.Inv) (hscript : s.script = []) (hscript' : s'.script = []) :
    ∃ t t', runSteps k s = .next t ∧ runSteps k s' = .next t' ∧ SameRun t t' ∧ t.Inv := by
  induction k generalizing s s' with
  | zero => exact ⟨s, s', rfl, rfl, h, hinv⟩
  | succ k ih =>
    obtain ⟨u, u', hu, hu', hrun⟩ := h.exec_decodeS hinv hinv'
    have hstep : step s = .next u := (step_of_script_nil hscript).trans hu
    have hstep' : step s' = .next u' := by rw [step_of_script_nil hscript', ← h.phase, hu']
    obtain ⟨t, t', ht, ht', hend⟩ := ih hrun (stepKeepsInvariant s u hinv hstep)
      (stepKeepsInvariant s' u' hinv' hstep') ((exec_kept hu).script.trans hscript)
      ((exec_kept hu').script.trans hscript')
    exact ⟨t, t', (runSteps_succ hstep k).trans ht, (runSteps_succ hstep' k).trans ht', hend⟩

/-- Where no symbol exists `SIZE` is 0 (R15). -/
theorem State.Inv.holdsSymbol_of_size_pos {s : State} (h : s.Inv) (hsize : 0 < s.size.toNat) :
    s.holdsSymbol := by
  have hle := h.phaseLegal
  by_contra hnot
  obtain ⟨-, -, h0, -, -, -⟩ := h.noSymbol (by rw [State.holdsSymbol] at hnot; bv_omega)
  simp [h0] at hsize

/-- Settles O55: two started runs with the same payload are in step, and stay so for six steps. -/
theorem runDependsOnPayloadAlone : Obligations.RunDependsOnPayloadAlone := by
  intro s s' hinv hinv' hp hp' hscript hscript' hconfig hplen hpbuf
  have hno := hinv.noSymbol (.inl (by simp [hp]))
  have hno' := hinv'.noSymbol (.inl (by simp [hp']))
  obtain ⟨hv, hl, hsz, hm, hmg, hfg⟩ := hno
  obtain ⟨hv', hl', hsz', hm', hmg', hfg'⟩ := hno'
  have herr := hinv.err_eq_zero (by rw [hp]; decide)
  have herr' := hinv'.err_eq_zero (by rw [hp']; decide)
  have hsame : SameRun s s' :=
    ⟨hconfig, hp.trans hp'.symm, herr.trans herr'.symm, hv.trans hv'.symm, hl.trans hl'.symm,
      hsz.trans hsz'.symm, hm.trans hm'.symm, hplen, hmg.trans hmg'.symm, hfg.trans hfg'.symm,
      State.payload_congr hplen hpbuf, fun hs => absurd hs.1 (by simp [hp]),
      fun hs => absurd hs.1 (by simp [hp])⟩
  obtain ⟨t, t', ht, ht', h, htinv⟩ := hsame.runSteps 6 hinv hinv' hscript hscript'
  refine ⟨t, t', ht, ht', h.phase, h.err, h.version, h.level, h.size, h.mask, h.plen, h.mgdim,
    h.fgdim, fun x hx y hy => ?_, fun c hdone hc j hj => ?_⟩
  · have hs := htinv.holdsSymbol_of_size_pos (by omega)
    have hn := (htinv.size_bounds hs).2
    exact ⟨h.mgAt_eq htinv hs (by omega) (by omega), h.fgAt_eq htinv hs (by omega) (by omega)⟩
  · exact h.codewords (by simp [hdone]) j (by rw [hc, Option.getD_some]; exact hj)

end Sys2Proof.Machine

/-! ## `PATTERN`: which cells its patterns cover (R95 to R100) -/

namespace Sys2Proof.Machine

theorem State.patternReady.version_bounds {s : State} (h : s.patternReady) :
    1 ≤ s.version.toNat ∧ s.version.toNat < 11 := by
  obtain ⟨-, hv, -⟩ := h
  omega

theorem State.patternReady.size_eq {s : State} (h : s.patternReady) :
    s.size.toNat = sizeOfVersion s.version.toNat := by
  obtain ⟨-, -, hn, -⟩ := h
  exact hn

theorem mem_patternWrites_iff {s : State} {w : CellWrite} :
    w ∈ s.patternWrites ↔ w ∈ cornerWrites s.size.toNat ∨ w ∈ timing s.size.toNat ∨
      1 < s.version.toNat ∧
        w ∈ alignment s.size.toNat ((alignAt? s.config s.version.toNat).getD []) := by
  unfold State.patternWrites
  rw [basePatterns_eq]
  split
  · rename_i hv
    simp only [List.mem_append, gt_iff_lt.mp hv, true_and, or_assoc]
  · rename_i hv
    simp only [List.mem_append, hv, false_and, or_false]

theorem exists_cornerWrite_iff {n x y : Nat} (hn : 21 ≤ n) :
    (∃ w ∈ cornerWrites n, w.x = x ∧ w.y = y) ↔ finderCorner n x y := by
  constructor
  · rintro ⟨w, hw, hx, hy⟩
    exact cornerWrites_inside_finderCorner hn hw hx hy
  · intro hc
    by_cases hs : finderSquare n x y
    · have hcell : ∃ o ∈ finderOrigins n, ∃ dy : Nat, dy < 7 ∧ ∃ dx : Nat, dx < 7 ∧
          o.1 + (dx : Int) = x ∧ o.2 + (dy : Int) = y := by
        rcases hs with hs | hs | hs
        · exact ⟨(0, 0), by simp [finderOrigins], y, by omega, x, by omega, by simp, by simp⟩
        · exact ⟨((n : Int) - 7, 0), by simp [finderOrigins], y, by omega, x + 7 - n, by omega,
            by simp only; omega, by simp⟩
        · exact ⟨(0, (n : Int) - 7), by simp [finderOrigins], y + 7 - n, by omega, x, by omega,
            by simp, by simp only; omega⟩
      obtain ⟨o, ho, dy, hdy, dx, hdx, hx, hy⟩ := hcell
      exact ⟨_, List.mem_append_left _ (mem_finders.mpr ⟨o, ho, dy, hdy, dx, hdx, rfl⟩), hx, hy⟩
    · exact ⟨_, List.mem_append_right _ (separatorCell_mem_separators ⟨hc, hs⟩ hn), rfl, rfl⟩

theorem exists_timing_iff {n x y : Nat} :
    (∃ w ∈ timing n, w.x = x ∧ w.y = y) ↔ timingCell n x y := by
  constructor
  · rintro ⟨w, hw, hx, hy⟩
    obtain ⟨i, hi, rfl | rfl⟩ := mem_timing.mp hw <;> simp only at hx hy <;> omega
  · rintro (⟨hi, rfl⟩ | ⟨rfl, hi⟩)
    · exact ⟨_, mem_timing.mpr ⟨x, hi, .inl rfl⟩, rfl, rfl⟩
    · exact ⟨_, mem_timing.mpr ⟨y, hi, .inr rfl⟩, rfl, rfl⟩

/-- Cell `(x, y)` is in the 5×5 square round the centre `c` (R99). -/
abbrev alignSquare (c : Nat × Nat) (x y : Nat) : Prop :=
  (c.1 ≤ x + 2 ∧ x ≤ c.1 + 2) ∧ (c.2 ≤ y + 2 ∧ y ≤ c.2 + 2)

theorem exists_drawAlign_iff {c : Nat × Nat} {x y : Nat} :
    (∃ w ∈ drawAlign c, w.x = x ∧ w.y = y) ↔ alignSquare c x y := by
  constructor
  · rintro ⟨w, hw, hx, hy⟩
    obtain ⟨j, hj, i, hi, rfl⟩ := mem_drawAlign.mp hw
    simp only at hx hy
    omega
  · intro hc
    exact ⟨_, mem_drawAlign.mpr ⟨y + 2 - c.2, by omega, x + 2 - c.1, by omega, rfl⟩,
      by simp only; omega, by simp only; omega⟩

theorem exists_alignment_iff {n x y : Nat} {l : List Nat} :
    (∃ w ∈ alignment n l, w.x = x ∧ w.y = y) ↔
      ∃ c ∈ drawnCentres n l, alignSquare c x y := by
  simp only [← exists_drawAlign_iff, alignment, List.mem_flatMap]
  exact ⟨fun ⟨w, ⟨c, hc, hw⟩, hxy⟩ => ⟨c, hc, w, hw, hxy⟩,
    fun ⟨c, hc, w, hw, hxy⟩ => ⟨w, ⟨c, hc, hw⟩, hxy⟩⟩

theorem mem_drawnCentres {n : Nat} {l : List Nat} {c : Nat × Nat} :
    c ∈ drawnCentres n l ↔ (c.1 ∈ l ∧ c.2 ∈ l) ∧ ¬alignSkipped n c.1 c.2 = true := by
  obtain ⟨cx, cy⟩ := c
  simp [drawnCentres]

/-- The centres `PATTERN` draws for the version of the state (R100). -/
def State.centres (s : State) : List (Nat × Nat) :=
  drawnCentres s.size.toNat ((alignAt? s.config s.version.toNat).getD [])

theorem State.alignmentCell_iff {s : State} {x y : Nat} :
    s.alignmentCell x y ↔ 1 < s.version.toNat ∧ ∃ c ∈ s.centres, alignSquare c x y := by
  unfold State.alignmentCell State.centres
  refine and_congr_right fun _ => ?_
  cases alignAt? s.config s.version.toNat with
  | none => simp [drawnCentres]
  | some l =>
    simp only [Option.some.injEq, exists_eq_left', Option.getD_some, mem_drawnCentres,
      alignSkipped_iff]
    constructor
    · rintro ⟨cx, hcx, cy, hcy, hskip, hsquare⟩
      exact ⟨(cx, cy), ⟨⟨hcx, hcy⟩, hskip⟩, hsquare⟩
    · rintro ⟨c, ⟨⟨hcx, hcy⟩, hskip⟩, hsquare⟩
      exact ⟨c.1, hcx, c.2, hcy, hskip, hsquare⟩

/-- The cells `PATTERN` writes are the finder corners, the timing lines and the alignment
squares. -/
theorem State.patternReady.exists_patternWrite_iff {s : State} (h : s.patternReady) {x y : Nat} :
    (∃ w ∈ s.patternWrites, w.x = x ∧ w.y = y) ↔
      finderCorner s.size.toNat x y ∨ timingCell s.size.toNat x y ∨ s.alignmentCell x y := by
  rw [← exists_cornerWrite_iff h.size_bounds.1, ← exists_timing_iff, State.alignmentCell_iff,
    State.centres, ← exists_alignment_iff]
  simp only [mem_patternWrites_iff, or_and_right, exists_or, and_assoc, exists_and_left]

theorem State.patternReady.patterned_fgAt {s : State} (h : s.patternReady) {x y : Nat}
    (hx : x < 57) :
    s.patterned.fgAt x y = true ↔
      finderCorner s.size.toNat x y ∨ timingCell s.size.toNat x y ∨ s.alignmentCell x y ∨
        s.fgAt x y = true := by
  have hmark := s.setfAll_fgAt h.writes_inWindow (y := y) hx
  rw [show s.patterned.fgAt x y = (s.setfAll s.patternWrites).fgAt x y from rfl, hmark,
    Bool.or_eq_true, decide_eq_true_iff, h.exists_patternWrite_iff]
  simp only [or_assoc]

theorem State.patternReady.patterned_mgAt_other {s : State} (h : s.patternReady) {x y : Nat}
    (hx : x < 57)
    (hnot : ¬(finderCorner s.size.toNat x y ∨ timingCell s.size.toNat x y ∨ s.alignmentCell x y)) :
    s.patterned.mgAt x y = s.mgAt x y := by
  have hcell := s.setfAll_mgAt h.writes_inWindow (y := y) hx
  rw [← h.exists_patternWrite_iff] at hnot
  rw [lastWrite_eq_none.mpr fun w hw hxy => hnot ⟨w, hw, hxy⟩] at hcell
  exact hcell

/-- Settles O27: the mark of a cell tells whether a pattern covers it, and a cell that none covers
is not written. -/
theorem patternMarksExactlyItsCells : Obligations.PatternMarksExactlyItsCells := fun s h =>
  ⟨s.patterned, h.exec_pattern, rfl,
    fun _ hx _ _ => ⟨h.patterned_fgAt hx, h.patterned_mgAt_other hx⟩⟩

/-! ## The alignment patterns of the default `ALIGN` (R43, R99, R100) -/

theorem alignAt?_congr {c c' : Config} (h : c.align = c'.align) (v : Nat) :
    alignAt? c v = alignAt? c' v := by
  simp only [alignAt?, h]

theorem drawnCentres_defaultAlign : ∀ v < 11, 1 ≤ v →
    drawnCentres (sizeOfVersion v) ((alignAt? defaultConfig v).getD []) = drawnTable v := by
  decide

theorem State.patternReady.centres_of_defaultAlign {s : State} (h : s.patternReady)
    (hd : s.config.align = defaultAlign) : s.centres = drawnTable s.version.toNat := by
  obtain ⟨hlo, hhi⟩ := h.version_bounds
  rw [State.centres, alignAt?_congr (c' := defaultConfig) hd, h.size_eq]
  exact drawnCentres_defaultAlign _ hhi hlo

/-- A coordinate of a default centre is even, and it is 6 or beyond the reach of the finder corner;
where one is 6 the other lies between the corners. The square lies inside the grid. -/
theorem drawnTable_coordinates : ∀ v < 11, ∀ c ∈ drawnTable v,
    1 < v ∧ (c.1 % 2 = 0 ∧ c.2 % 2 = 0) ∧
    (c.1 + 3 ≤ sizeOfVersion v ∧ c.2 + 3 ≤ sizeOfVersion v) ∧
    (11 ≤ c.1 ∨ c.1 = 6 ∧ 11 ≤ c.2 ∧ c.2 + 10 < sizeOfVersion v) ∧
    (11 ≤ c.2 ∨ c.2 = 6 ∧ 11 ≤ c.1 ∧ c.1 + 10 < sizeOfVersion v) := by
  decide

/-- The 5×5 squares of two default centres do not meet (R99). -/
theorem drawnTable_apart : ∀ v < 11, ∀ c ∈ drawnTable v, ∀ c' ∈ drawnTable v,
    (c.1 = c'.1 ∨ c.1 + 5 ≤ c'.1 ∨ c'.1 + 5 ≤ c.1) ∧
    (c.2 = c'.2 ∨ c.2 + 5 ≤ c'.2 ∨ c'.2 + 5 ≤ c.2) := by
  decide

/-- On the lines through its centre the alignment template alternates, starting dark (R99). -/
theorem alignBit_on_axis : ∀ i : Nat, i < 5 →
    alignBit ((i : Int) - 2) 0 = (i % 2 == 0) ∧ alignBit 0 ((i : Int) - 2) = (i % 2 == 0) := by
  decide

/-- The timing lines lie on index 6, so their bit is the parity of `x + y` as well (R98). -/
theorem timing_bit {n x y : Nat} {w : CellWrite} (hw : w ∈ timing n) (hx : w.x = x)
    (hy : w.y = y) : w.bit = ((x + y) % 2 == 0) := by
  obtain ⟨i, -, rfl | rfl⟩ := mem_timing.mp hw <;> simp only at hx hy ⊢ <;> congr 1 <;> omega

/-- A default alignment pattern that covers a timing cell is centred on the line at an even index,
so the two agree (R93, R98, R99). -/
theorem drawAlign_bit_on_timing {n v x y : Nat} (hv : v < 11) {c : Nat × Nat}
    (hc : c ∈ drawnTable v) {w : CellWrite} (hw : w ∈ drawAlign c) (hx : w.x = x) (hy : w.y = y)
    (ht : timingCell n x y) : w.bit = ((x + y) % 2 == 0) := by
  obtain ⟨-, heven, -, hc1, hc2⟩ := drawnTable_coordinates v hv c hc
  obtain ⟨j, hj, i, hi, rfl⟩ := mem_drawAlign.mp hw
  simp only at hx hy ⊢
  rcases ht with ⟨-, rfl⟩ | ⟨rfl, -⟩
  · obtain rfl : j = 2 := by omega
    refine (alignBit_on_axis i hi).1.trans ?_
    congr 1
    omega
  · obtain rfl : i = 2 := by omega
    refine (alignBit_on_axis j hj).2.trans ?_
    congr 1
    omega

theorem drawAlign_agree {v x y : Nat} (hv : v < 11) {c c' : Nat × Nat} (hc : c ∈ drawnTable v)
    (hc' : c' ∈ drawnTable v) {w w' : CellWrite} (hw : w ∈ drawAlign c) (hw' : w' ∈ drawAlign c')
    (hx : w.x = x) (hy : w.y = y) (hx' : w'.x = x) (hy' : w'.y = y) : w'.bit = w.bit := by
  have hapart := drawnTable_apart v hv c hc c' hc'
  obtain ⟨j, hj, i, hi, rfl⟩ := mem_drawAlign.mp hw
  obtain ⟨j', hj', i', hi', rfl⟩ := mem_drawAlign.mp hw'
  simp only at hx hy hx' hy' ⊢
  obtain rfl : i' = i := by omega
  obtain rfl : j' = j := by omega
  rfl

section
variable {s : State} (h : s.patternReady)
include h

/-- With the default `ALIGN`, an alignment write is of a centre that R100 tabulates. -/
theorem State.patternReady.exists_drawnTable_of_mem_alignment
    (hd : s.config.align = defaultAlign) {w : CellWrite}
    (hw : w ∈ alignment s.size.toNat ((alignAt? s.config s.version.toNat).getD [])) :
    ∃ c ∈ drawnTable s.version.toNat, w ∈ drawAlign c := by
  rw [← h.centres_of_defaultAlign hd]
  exact List.mem_flatMap.mp hw

theorem State.patternReady.mem_patternWrites_of_drawnTable (hd : s.config.align = defaultAlign)
    {c : Nat × Nat} (hc : c ∈ drawnTable s.version.toNat) {w : CellWrite} (hw : w ∈ drawAlign c) :
    w ∈ s.patternWrites := by
  have hv : 1 < s.version.toNat :=
    (drawnTable_coordinates _ h.version_bounds.2 c hc).1
  rw [← h.centres_of_defaultAlign hd] at hc
  exact mem_patternWrites_iff.mpr (.inr (.inr ⟨hv, List.mem_flatMap.mpr ⟨c, hc, hw⟩⟩))

/-- Every write to a timing cell gives it the parity of its index, unless an alignment pattern of a
table other than the default covers the cell. -/
theorem State.patternReady.patternWrite_bit_on_timing {x y : Nat}
    (ht : timingCell s.size.toNat x y) (hd : s.config.align = defaultAlign ∨ ¬s.alignmentCell x y)
    {w : CellWrite} (hw : w ∈ s.patternWrites) (hx : w.x = x) (hy : w.y = y) :
    w.bit = ((x + y) % 2 == 0) := by
  obtain hcorner | htiming | ⟨hv, halign⟩ := mem_patternWrites_iff.mp hw
  · have hc := cornerWrites_inside_finderCorner h.size_bounds.1 hcorner hx hy
    obtain ⟨w', hw', hx', hy'⟩ := exists_timing_iff.mpr ht
    exact absurd hc (timing_avoids_finderCorner hw' hx' hy')
  · exact timing_bit htiming hx hy
  · obtain hd | hnot := hd
    · obtain ⟨c, hc, hwc⟩ := h.exists_drawnTable_of_mem_alignment hd halign
      exact drawAlign_bit_on_timing h.version_bounds.2 hc hwc hx hy ht
    · exact absurd (State.alignmentCell_iff.mpr ⟨hv, exists_alignment_iff.mp ⟨w, halign, hx, hy⟩⟩)
        hnot

theorem State.patternReady.patterned_timing {x y : Nat} (ht : timingCell s.size.toNat x y)
    (hd : s.config.align = defaultAlign ∨ ¬s.alignmentCell x y) :
    s.patterned.mgAt x y = ((x + y) % 2 == 0) := by
  have hn := h.size_bounds.2
  obtain ⟨w, hw, hxy⟩ := exists_timing_iff.mpr ht
  exact (h.patterned_cell (by omega) ⟨w, mem_patternWrites_iff.mpr (.inr (.inl hw)), hxy⟩
    fun _ => h.patternWrite_bit_on_timing ht hd).2

/-- A write of a default alignment pattern is what `PATTERN` leaves in its cell. -/
theorem State.patternReady.patterned_drawAlign (hd : s.config.align = defaultAlign)
    {c : Nat × Nat} (hc : c ∈ drawnTable s.version.toNat) {w : CellWrite} (hw : w ∈ drawAlign c)
    {x y : Nat} (hx : w.x = x) (hy : w.y = y) :
    s.patterned.fgAt x y = true ∧ s.patterned.mgAt x y = w.bit := by
  have hv := h.version_bounds.2
  have hmem := h.mem_patternWrites_of_drawnTable hd hc hw
  have hin := List.all_eq_true.mp h.writes_inWindow w hmem
  rw [CellWrite.inWindow_iff] at hin
  refine h.patterned_cell (by omega) ⟨w, hmem, hx, hy⟩ fun w' hw' hx' hy' => ?_
  obtain hcorner | htiming | ⟨-, halign⟩ := mem_patternWrites_iff.mp hw'
  · have hfc := cornerWrites_inside_finderCorner h.size_bounds.1 hcorner hx' hy'
    rw [← h.centres_of_defaultAlign hd] at hc
    have hal := List.mem_flatMap.mpr ⟨c, hc, hw⟩
    exact absurd hfc (alignment_avoids_finderCorner hal hx hy)
  · have ht := exists_timing_iff.mp ⟨w', htiming, hx', hy'⟩
    rw [timing_bit htiming hx' hy', drawAlign_bit_on_timing hv hc hw hx hy ht]
  · obtain ⟨c', hc', hwc'⟩ := h.exists_drawnTable_of_mem_alignment hd halign
    exact drawAlign_agree hv hc hc' hw hwc' hx hy hx' hy'

end

/-- Settles O25: the mark as for every covered cell, the value by the parity of the index. -/
theorem patternDrawsTimingLines : Obligations.PatternDrawsTimingLines := by
  intro s h
  have hn := h.size_bounds.2
  refine ⟨s.patterned, h.exec_pattern, fun i hlo hhi => ?_⟩
  have hrow : timingCell s.size.toNat i 6 := .inl ⟨⟨hlo, hhi⟩, rfl⟩
  have hcol : timingCell s.size.toNat 6 i := .inr ⟨rfl, hlo, hhi⟩
  refine ⟨⟨(h.patterned_fgAt (by omega)).mpr (.inr (.inl hrow)),
    (h.patterned_fgAt (by omega)).mpr (.inr (.inl hcol))⟩, fun hd => ?_, fun hd => ?_⟩
  · rw [h.patterned_timing hrow hd, beq_iff_eq]
    omega
  · rw [h.patterned_timing hcol hd, beq_iff_eq]
    omega

theorem alignBit_eq_false {dx dy : Int} :
    alignBit dx dy = false ↔ max dx.natAbs dy.natAbs = 1 :=
  bne_eq_false_iff_eq

/-- Settles O26: the template's write is what `PATTERN` leaves. -/
theorem patternDrawsDefaultAlignment : Obligations.PatternDrawsDefaultAlignment := by
  intro s h hd
  refine ⟨s.patterned, h.exec_pattern, fun c hc i hi j hj => ?_⟩
  have hcoord := drawnTable_coordinates _ h.version_bounds.2 c hc
  have hw := (mem_drawAlign (c := c)).mpr ⟨j, hj, i, hi, rfl⟩
  obtain ⟨hfg, hmg⟩ := h.patterned_drawAlign hd hc hw (x := c.1 + i - 2) (y := c.2 + j - 2)
    (by simp only; omega) (by simp only; omega)
  exact ⟨hfg, by rw [hmg, alignBit_eq_false]⟩

/-! ## The function cells with the default `ALIGN` (R101, R137) -/

/-- Cell `(x, y)` is covered by a pattern of version `v` with the default `ALIGN`. -/
abbrev defaultFunctionCell (v x y : Nat) : Prop :=
  finderCorner (sizeOfVersion v) x y ∨ timingCell (sizeOfVersion v) x y ∨
    ∃ c ∈ drawnTable v, alignSquare c x y

section
variable {s : State} (h : s.patternReady) (hd : s.config.align = defaultAlign)
  (hclear : ∀ x < 57, ∀ y < 57, s.fgAt x y = false)
include h hd hclear

/-- On cleared grids the marks after `PATTERN` are those of its own cells. -/
theorem State.patternReady.patterned_fgAt_of_cleared {x y : Nat} (hx : x < 57) (hy : y < 57) :
    s.patterned.fgAt x y = true ↔ defaultFunctionCell s.version.toNat x y := by
  have halign : s.alignmentCell x y ↔ ∃ c ∈ drawnTable s.version.toNat, alignSquare c x y := by
    rw [State.alignmentCell_iff, h.centres_of_defaultAlign hd, and_iff_right_iff_imp]
    rintro ⟨c, hc, -⟩
    exact (drawnTable_coordinates _ h.version_bounds.2 c hc).1
  rw [h.patterned_fgAt hx, hclear x hx y hy, halign, h.size_eq]
  simp only [Bool.false_eq_true, or_false]

end

/-! The same cells as a finite set, in parts whose sizes add up: the corners, the timing lines, and
of each alignment square what is not on a timing line. -/

/-- The cells of the columns `a` to `b - 1` and the rows `c` to `d - 1`. -/
def cellRect (a b c d : Nat) : Finset (Nat × Nat) := Finset.Ico a b ×ˢ Finset.Ico c d

@[simp] theorem mem_cellRect {a b c d : Nat} {p : Nat × Nat} :
    p ∈ cellRect a b c d ↔ (a ≤ p.1 ∧ p.1 < b) ∧ (c ≤ p.2 ∧ p.2 < d) := by
  simp [cellRect]

@[simp] theorem card_cellRect (a b c d : Nat) : (cellRect a b c d).card = (b - a) * (d - c) := by
  simp [cellRect]

def cornerCells (n : Nat) : Finset (Nat × Nat) :=
  cellRect 0 8 0 8 ∪ cellRect (n - 8) n 0 8 ∪ cellRect 0 8 (n - 8) n

def timingCells (n : Nat) : Finset (Nat × Nat) := cellRect 8 (n - 8) 6 7 ∪ cellRect 6 7 8 (n - 8)

def alignRest (n : Nat) (c : Nat × Nat) : Finset (Nat × Nat) :=
  (cellRect (c.1 - 2) (c.1 + 3) (c.2 - 2) (c.2 + 3)).filter fun p => ¬timingCell n p.1 p.2

theorem mem_alignRest {n : Nat} {c p : Nat × Nat} :
    p ∈ alignRest n c ↔ alignSquare c p.1 p.2 ∧ ¬timingCell n p.1 p.2 := by
  simp only [alignRest, Finset.mem_filter, mem_cellRect]
  omega

section
variable {n : Nat} (hn : 21 ≤ n) {p : Nat × Nat}
include hn

theorem mem_cornerCells : p ∈ cornerCells n ↔ finderCorner n p.1 p.2 := by
  simp only [cornerCells, Finset.mem_union, mem_cellRect]
  omega

theorem mem_timingCells : p ∈ timingCells n ↔ timingCell n p.1 p.2 := by
  simp only [timingCells, Finset.mem_union, mem_cellRect]
  omega

theorem card_cornerCells : (cornerCells n).card = 192 := by
  unfold cornerCells
  rw [Finset.card_union_of_disjoint, Finset.card_union_of_disjoint]
  · simp only [card_cellRect]
    omega
  · exact Finset.disjoint_left.mpr fun p hp hp' => by simp only [mem_cellRect] at hp hp'; omega
  · refine Finset.disjoint_left.mpr fun p hp hp' => ?_
    simp only [Finset.mem_union, mem_cellRect] at hp hp'
    omega

theorem card_timingCells : (timingCells n).card = 2 * (n - 16) := by
  unfold timingCells
  rw [Finset.card_union_of_disjoint]
  · simp only [card_cellRect]
    omega
  · exact Finset.disjoint_left.mpr fun p hp hp' => by simp only [mem_cellRect] at hp hp'; omega

end

/-- The cells that the patterns of version `v` cover with the default `ALIGN`. -/
def defaultFunctionCells (v : Nat) : Finset (Nat × Nat) :=
  cornerCells (sizeOfVersion v) ∪ timingCells (sizeOfVersion v) ∪
    (drawnTable v).toFinset.biUnion (alignRest (sizeOfVersion v))

section
variable {v : Nat} (hv : 1 ≤ v ∧ v < 11)
include hv

theorem mem_defaultFunctionCells {p : Nat × Nat} :
    p ∈ defaultFunctionCells v ↔ p ∈ windowCells (sizeOfVersion v) ∧
      defaultFunctionCell v p.1 p.2 := by
  have hn := (sizeOfVersion_bounds (v := v) (by omega)).1
  simp only [defaultFunctionCells, Finset.mem_union, Finset.mem_biUnion, List.mem_toFinset,
    mem_cornerCells hn, mem_timingCells hn, mem_alignRest, mem_windowCells]
  constructor
  · rintro ((hc | ht) | ⟨c, hc, hsquare, -⟩)
    · exact ⟨by omega, .inl hc⟩
    · exact ⟨by omega, .inr (.inl ht)⟩
    · have hcoord := drawnTable_coordinates v hv.2 c hc
      exact ⟨by omega, .inr (.inr ⟨c, hc, hsquare⟩)⟩
  · rintro ⟨-, hc | ht | ⟨c, hc, hsquare⟩⟩
    · exact .inl (.inl hc)
    · exact .inl (.inr ht)
    · by_cases ht : timingCell (sizeOfVersion v) p.1 p.2
      · exact .inl (.inr ht)
      · exact .inr ⟨c, hc, hsquare, ht⟩

theorem card_defaultFunctionCells :
    (defaultFunctionCells v).card = 192 + 2 * (sizeOfVersion v - 16) +
      ∑ c ∈ (drawnTable v).toFinset, (alignRest (sizeOfVersion v) c).card := by
  have hn := (sizeOfVersion_bounds (v := v) (by omega)).1
  unfold defaultFunctionCells
  rw [Finset.card_union_of_disjoint, Finset.card_union_of_disjoint, card_cornerCells hn,
    card_timingCells hn, Finset.card_biUnion]
  · intro c hc c' hc' hne
    rw [Finset.mem_coe, List.mem_toFinset] at hc hc'
    have hapart := drawnTable_apart v hv.2 c hc c' hc'
    refine Finset.disjoint_left.mpr fun p hp hp' => hne ?_
    rw [mem_alignRest] at hp hp'
    exact Prod.ext (by omega) (by omega)
  · refine Finset.disjoint_left.mpr fun p hp hp' => ?_
    rw [mem_cornerCells hn] at hp
    rw [mem_timingCells hn] at hp'
    omega
  · refine Finset.disjoint_left.mpr fun p hp hp' => ?_
    obtain ⟨c, hc, hrest⟩ := Finset.mem_biUnion.mp hp'
    rw [mem_alignRest] at hrest
    have hcoord := drawnTable_coordinates v hv.2 c (List.mem_toFinset.mp hc)
    rcases Finset.mem_union.mp hp with hp | hp
    · rw [mem_cornerCells hn] at hp
      omega
    · exact hrest.2 ((mem_timingCells hn).mp hp)

end

/-- The sizes of the parts give the spec's ten numbers (R101 item 1). -/
theorem functionCellCounts_by_parts : ∀ v < 11, 1 ≤ v →
    some (192 + 2 * (sizeOfVersion v - 16) +
      ∑ c ∈ (drawnTable v).toFinset, (alignRest (sizeOfVersion v) c).card) =
      [202, 235, 243, 251, 259, 267, 390, 398, 406, 414][v - 1]? := by
  decide +kernel

theorem countP_windowCells_eq_card {n : Nat} {p : Nat × Nat → Bool} {cells : Finset (Nat × Nat)}
    (h : ∀ c, c ∈ cells ↔ c ∈ windowCells n ∧ p c = true) :
    (windowCells n).countP p = cells.card := by
  rw [List.countP_eq_length_filter, ← List.toFinset_card_of_nodup ((nodup_windowCells n).filter p)]
  congr 1
  ext c
  rw [List.mem_toFinset, List.mem_filter, h]

/-- Settles O28: the marked cells of the window are the cells of the patterns, counted by parts. -/
theorem defaultFunctionCellCounts : Obligations.DefaultFunctionCellCounts := by
  intro s h hd hclear
  have hv := h.version_bounds
  have hn := h.size_bounds.2
  rw [h.size_eq] at hn
  refine ⟨s.patterned, h.exec_pattern, ?_⟩
  rw [← functionCellCounts_by_parts _ hv.2 hv.1, ← card_defaultFunctionCells hv]
  refine congrArg some (countP_windowCells_eq_card fun c => ?_)
  rw [mem_defaultFunctionCells hv, h.size_eq]
  refine and_congr_right fun hc => ?_
  obtain ⟨hx, hy⟩ := mem_windowCells.mp hc
  rw [h.patterned_fgAt_of_cleared hd hclear (by omega) (by omega)]

/-- The format cells lie beside the finder corners, clear of every default pattern (R137). -/
theorem formatCell_not_defaultFunctionCell {v x y : Nat} (hv : 1 ≤ v ∧ v < 11)
    (hf : formatCell (sizeOfVersion v) .full x y) : ¬defaultFunctionCell v x y := by
  have hn := sizeOfVersion_bounds (v := v) (by omega)
  simp only [formatCell, true_and] at hf
  rintro (hc | ht | ⟨c, hc, hsquare⟩)
  · omega
  · omega
  · have hcoord := drawnTable_coordinates v hv.2 c hc
    omega

/-- Settles O29: the marks on cleared grids are those of the patterns' own cells. -/
theorem formatCellsAreFreeAfterPattern : Obligations.FormatCellsAreFreeAfterPattern := by
  intro s h hd hclear
  refine ⟨s.patterned, h.exec_pattern, fun x hx y hy hf => ?_⟩
  rw [h.size_eq] at hf
  rw [← Bool.not_eq_true, h.patterned_fgAt_of_cleared hd hclear hx hy]
  exact formatCell_not_defaultFunctionCell h.version_bounds hf

end Sys2Proof.Machine

/-! ## `ENCODE`: the codewords in closed form (R110) -/

namespace Sys2Proof.Machine

theorem drop_flatMap_byteBits (l : List Byte) (i : Nat) :
    (l.flatMap byteBits).drop (8 * i) = (l.drop i).flatMap byteBits := by
  induction i generalizing l with
  | zero => rfl
  | succ i ih =>
    cases l with
    | nil => simp
    | cons b l =>
      rw [List.flatMap_cons, show 8 * (i + 1) = (byteBits b).length + 8 * i by simp; omega,
        List.drop_length_add_append, ih, List.drop_succ_cons]

theorem take_drop_append_of_le {A B : List Bool} {i k : Nat} (h : i + k ≤ A.length) :
    ((A ++ B).drop i).take k = (A.drop i).take k := by
  rw [List.drop_append_of_le_length (by omega), List.take_append_of_le_length (by simp; omega)]

/-- The bytes that the header and the payload make when the mode indicator fills the second half of
the first, and the terminator the first half of the last (R104 to R107). -/
def streamBytes (p : List Byte) : List Byte :=
  0x04#8 :: BitVec.ofNat 8 (p.length % 256) :: (p ++ [0x00#8])

theorem streamHead_append_zeros (p : List Byte) :
    streamHead p ++ List.replicate 8 false = ((streamBytes p).flatMap byteBits).drop 4 := by
  have hmode : byteBits 0x04#8 = List.replicate 4 false ++ msbFirst 4 0b0100 := by decide
  have hlast : byteBits 0x00#8 = List.replicate 8 false := by decide
  have hlength : byteBits (BitVec.ofNat 8 (p.length % 256)) = msbFirst 8 (p.length % 256) := by
    simp [byteBits]
  simp [streamBytes, streamHead, hmode, hlast, hlength, List.drop_append]

/-- Byte `j` of the stream is the second half of one of those bytes and the first half of the
next. -/
theorem byteOfBits_bitstream {p : List Byte} {c j : Nat} {a b : Byte} (hfit : p.length + 3 ≤ c)
    (ha : (streamBytes p)[j]? = some a) (hb : (streamBytes p)[j + 1]? = some b) :
    byteOfBits (((bitstream p c).drop (8 * j)).take 8) =
      BitVec.ofNat 8 ((a.toNat % 16 * 16) ||| b.toNat / 16) := by
  obtain ⟨hjlt, hja⟩ := List.getElem?_eq_some_iff.mp ha
  obtain ⟨hjlt', hjb⟩ := List.getElem?_eq_some_iff.mp hb
  have hlen : 8 * j + 8 ≤ (streamHead p ++ List.replicate 4 false).length := by
    have : (streamBytes p).length = p.length + 3 := by simp [streamBytes]
    simp
    omega
  have hbytes : (streamBytes p).drop j = a :: b :: (streamBytes p).drop (j + 2) := by
    rw [List.drop_eq_getElem_cons hjlt, List.drop_eq_getElem_cons hjlt', hja, hjb]
  have hsplit : List.replicate 8 false = List.replicate 4 false ++ List.replicate 4 false := rfl
  have hbits : ((bitstream p c).drop (8 * j)).take 8 =
      (byteBits a).drop 4 ++ (byteBits b).take 4 := by
    calc ((bitstream p c).drop (8 * j)).take 8
        = ((streamHead p ++ List.replicate 4 false).drop (8 * j)).take 8 := by
          rw [bitstream_of_fits hfit, take_drop_append_of_le hlen]
      _ = ((streamHead p ++ List.replicate 8 false).drop (8 * j)).take 8 := by
          rw [hsplit, ← List.append_assoc, take_drop_append_of_le hlen]
      _ = ((((streamBytes p).drop j).flatMap byteBits).drop 4).take 8 := by
          rw [streamHead_append_zeros, List.drop_drop, Nat.add_comm, ← List.drop_drop,
            drop_flatMap_byteBits]
      _ = (byteBits a).drop 4 ++ (byteBits b).take 4 := by
          rw [hbytes]
          simp [List.drop_append, List.take_append]
  have hor : a.toNat % 16 * 16 + b.toNat / 16 = a.toNat % 16 * 16 ||| b.toNat / 16 := by
    rw [Nat.mul_comm]
    exact Nat.two_pow_add_eq_or_of_lt (i := 4) (by have := b.isLt; omega) _
  rw [hbits, byteOfBits_halves, hor]

/-- After the header, the payload and the terminator the stream is the pad bytes (R109). -/
theorem byteOfBits_bitstream_pad {p : List Byte} {c k : Nat} (hk : k + p.length + 2 < c) :
    byteOfBits (((bitstream p c).drop (8 * (p.length + 2 + k))).take 8) =
      if k % 2 = 0 then 0xEC#8 else 0x11#8 := by
  have hlen : (streamHead p ++ List.replicate 4 false).length = 8 * (p.length + 2) := by
    simp
    omega
  have hpad : padBytes (c - p.length - 2) =
      ((List.range (c - p.length - 2)).map fun i => if i % 2 = 0 then 0xEC#8 else 0x11#8).flatMap
        byteBits := by
    rw [padBytes, List.flatMap_map]
  rw [bitstream_of_fits (by omega), Nat.mul_add, ← hlen, List.drop_length_add_append, hpad,
    drop_flatMap_byteBits, List.drop_eq_getElem_cons (by simp; omega), List.flatMap_cons,
    List.take_append_of_le_length (by simp), List.take_of_length_le (by simp), byteOfBits_byteBits,
    List.getElem_map, List.getElem_range]

/-! The bytes of the header and the payload, by position. -/

section
variable (s : State)

theorem State.streamBytes_mode : (streamBytes s.payload)[0]? = some 0x04#8 := rfl

theorem State.streamBytes_length :
    (streamBytes s.payload)[1]? = some (BitVec.ofNat 8 (s.plen.toNat % 256)) := by
  simp [streamBytes]

theorem State.streamBytes_payload {i : Nat} (hi : i < s.plen.toNat) :
    (streamBytes s.payload)[i + 2]? = some (s.pbufAt i) := by
  simp only [streamBytes, List.getElem?_cons_succ]
  rw [List.getElem?_append_left (by simpa), s.getElem?_payload hi]

theorem State.streamBytes_terminator :
    (streamBytes s.payload)[s.plen.toNat + 2]? = some 0x00#8 := by
  simp only [streamBytes, List.getElem?_cons_succ]
  rw [List.getElem?_append_right (by simp), s.length_payload, Nat.sub_self]
  rfl

end

theorem State.encoded_cwAt_halves {s : State} {c j : Nat} {a b : Byte}
    (hfit : s.plen.toNat + 3 ≤ c) (ha : (streamBytes s.payload)[j]? = some a)
    (hb : (streamBytes s.payload)[j + 1]? = some b) :
    (s.encoded c).cwAt j = BitVec.ofNat 8 ((a.toNat % 16 * 16) ||| b.toNat / 16) := by
  have hj : j + 1 < s.plen.toNat + 3 := by
    obtain ⟨hlt, -⟩ := List.getElem?_eq_some_iff.mp hb
    simp only [streamBytes, List.length_cons, List.length_append, List.length_nil,
      s.length_payload] at hlt
    omega
  rw [s.encoded_cwAt (by omega), byteOfBits_bitstream (by simpa) ha hb]

theorem State.encoded_cwAt_beyond (s : State) {c j : Nat} (hj : c ≤ j) :
    (s.encoded c).cwAt j = s.cwAt j := by
  rw [State.cwAt, State.encoded, Memory.find_writeFrom, length_packBytes, if_neg (by omega)]
  rfl

/-- Settles O31: each byte below the pad bytes is two halves of neighbouring bytes of the header and
the payload. -/
theorem encodeClosedForm : Obligations.EncodeClosedForm := by
  intro s c hc h0 hfit
  have hpos : 0 < s.plen.toNat := Nat.pos_of_ne_zero fun h => h0 (BitVec.eq_of_toNat_eq h)
  refine ⟨s.encoded c, exec_encode_of_fits hc hfit, rfl, ?_, ?_, fun i hi hle => ?_, ?_,
    fun k hk => ?_, fun j hj => s.encoded_cwAt_beyond hj⟩
  · rw [State.encoded_cwAt_halves hfit s.streamBytes_mode s.streamBytes_length]
    simp
  · rw [State.encoded_cwAt_halves hfit s.streamBytes_length (s.streamBytes_payload hpos)]
    simp
  · obtain ⟨i, rfl⟩ := Nat.exists_eq_add_of_le' hi
    exact State.encoded_cwAt_halves hfit (s.streamBytes_payload (by omega))
      (s.streamBytes_payload (by omega))
  · obtain ⟨l, hl⟩ := Nat.exists_eq_add_of_le' hpos
    have hlast := s.streamBytes_payload (i := l) (by omega)
    have hend := s.streamBytes_terminator
    rw [hl] at hend ⊢
    rw [State.encoded_cwAt_halves hfit hlast hend]
    simp
  · rw [s.encoded_cwAt (by omega), ← s.length_payload, byteOfBits_bitstream_pad (by simpa)]

end Sys2Proof.Machine

/-! ## The zigzag in closed form (R112 to R114, R117) -/

namespace Sys2Proof.Machine

theorem rightColumns_succ {fuel right : Nat} (h1 : 1 ≤ right) (h6 : right ≠ 6) :
    rightColumns (fuel + 1) right = right :: rightColumns fuel (right - 2) := by
  simp only [rightColumns, if_neg (Nat.not_lt.mpr h1), if_neg h6]

theorem rightColumns_zero (fuel : Nat) : rightColumns fuel 0 = [] := by
  cases fuel <;> rfl

/-- Left of column 6 two pairs follow the pair of column 5. -/
theorem rightColumns_six (fuel : Nat) : rightColumns (fuel + 3) 6 = [5, 3, 1] := by
  change 5 :: rightColumns (fuel + 2) 3 = [5, 3, 1]
  rw [rightColumns_succ (by decide) (by decide), rightColumns_succ (by decide) (by decide),
    rightColumns_zero]

/-- The right column of the pair number `pair`, column 6 passed over (R112). -/
def zigzagRight (n pair : Nat) : Nat :=
  if n - 1 - 2 * pair ≤ 6 then n - 2 - 2 * pair else n - 1 - 2 * pair

theorem rightColumns_even (m fuel : Nat) (hm : 3 ≤ m) (hfuel : m ≤ fuel) :
    rightColumns fuel (2 * m) = (List.range m).map (zigzagRight (2 * m + 1)) := by
  induction m, hm using Nat.le_induction generalizing fuel with
  | base =>
    obtain ⟨fuel, rfl⟩ := Nat.exists_eq_add_of_le' hfuel
    exact rightColumns_six fuel
  | succ m hm ih =>
    obtain ⟨fuel, rfl⟩ := Nat.exists_eq_add_of_le' (Nat.one_le_of_lt hfuel)
    rw [rightColumns_succ (by omega) (by omega), show 2 * (m + 1) - 2 = 2 * m by omega,
      ih fuel (by omega), List.range_succ_eq_map, List.map_cons, List.map_map]
    congr 1
    · rw [zigzagRight, if_neg (by omega)]
      omega
    · refine List.map_congr_left fun i _ => ?_
      simp only [Function.comp_apply, zigzagRight]
      split <;> split <;> omega

theorem rightColumns_eq_zigzagRight {n : Nat} (hodd : n % 2 = 1) (hn : 7 ≤ n) :
    rightColumns n (n - 1) = (List.range ((n - 1) / 2)).map (zigzagRight n) := by
  obtain ⟨m, rfl⟩ : ∃ m, n = 2 * m + 1 := ⟨n / 2, by omega⟩
  rw [Nat.add_sub_cancel, Nat.mul_div_cancel_left m (by decide)]
  exact rightColumns_even m (2 * m + 1) (by omega) (by omega)

theorem range_mul_eq_flatMap (m k : Nat) :
    List.range (m * k) = (List.range m).flatMap fun i => (List.range k).map fun j => i * k + j := by
  induction m with
  | zero => simp
  | succ m ih =>
    rw [Nat.succ_mul, List.range_add, ih, List.range_succ, List.flatMap_append]
    simp

/-- The cells of a pair, by their number in it: the right column first (R114). -/
theorem pairCells_eq_map_range (n : Nat) (up : Bool) {right : Nat} :
    pairCells n up right = (List.range (n * 2)).map fun k =>
      (right - k % 2, if up then n - 1 - k / 2 else k / 2) := by
  rw [range_mul_eq_flatMap, List.map_flatMap, pairCells, pairRows, List.flatMap_map]
  refine List.flatMap_congr fun t _ => ?_
  have h0 : t * 2 % 2 = 0 ∧ t * 2 / 2 = t := by omega
  have h1 : (t * 2 + 1) % 2 = 1 ∧ (t * 2 + 1) / 2 = t := by omega
  simp [List.range_succ, h0, h1]

/-- The direction is flipped after every pair, so it is that of the pair's number (R113). -/
theorem pairsCells_map_range (n m : Nat) (right : Nat → Nat) (up : Bool) :
    pairsCells n up ((List.range m).map right) =
      (List.range m).flatMap fun i => pairCells n (up ^^ decide (i % 2 = 1)) (right i) := by
  induction m generalizing right up with
  | zero => rfl
  | succ m ih =>
    rw [List.range_succ_eq_map, List.map_cons, List.map_map, List.flatMap_cons, pairsCells, ih,
      List.flatMap_map]
    have hflip : ∀ i, (!up ^^ decide (i % 2 = 1)) = (up ^^ decide ((i + 1) % 2 = 1)) := by
      intro i
      rcases Nat.mod_two_eq_zero_or_one i with h | h <;> simp [Nat.add_mod, h]
    simp [hflip]

theorem zigzagCell_add {n i k : Nat} (hk : k < n * 2) :
    zigzagCell n (i * (n * 2) + k) =
      (zigzagRight n i - k % 2, if i % 2 = 0 then n - 1 - k / 2 else k / 2) := by
  have hpair : (i * (n * 2) + k) / (2 * n) = i := by
    rw [Nat.mul_comm 2 n, Nat.mul_comm i, Nat.mul_add_div (by omega), Nat.div_eq_of_lt hk,
      Nat.add_zero]
  have hrest : (i * (n * 2) + k) % (2 * n) = k := by
    rw [Nat.mul_comm 2 n, Nat.mul_add_mod', Nat.mod_eq_of_lt hk]
  have hcol : (i * (n * 2) + k) % 2 = k % 2 := by
    rw [← Nat.mul_assoc, Nat.mul_add_mod']
  simp only [zigzagCell, hpair, hrest, hcol, zigzagRight]

/-- Settles O32: the pairs in their closed form, and the cells of each pair in turn. -/
theorem zigzagVisitsInClosedForm : Obligations.ZigzagVisitsInClosedForm := by
  intro n hodd hn
  have hcells : n * (n - 1) = (n - 1) / 2 * (n * 2) := by
    obtain ⟨m, rfl⟩ : ∃ m, n = 2 * m + 1 := ⟨n / 2, by omega⟩
    rw [Nat.add_sub_cancel, Nat.mul_div_cancel_left m (by decide)]
    ring
  rw [visits, rightColumns_eq_zigzagRight hodd hn, pairsCells_map_range, hcells,
    range_mul_eq_flatMap, List.map_flatMap]
  refine List.flatMap_congr fun i _ => ?_
  rw [pairCells_eq_map_range, List.map_map]
  refine List.map_congr_left fun k hk => ?_
  rw [Function.comp_apply, zigzagCell_add (List.mem_range.mp hk)]
  rcases Nat.mod_two_eq_zero_or_one i with h | h <;> simp [h]

/-- The pairs cover every column but column 6 (R112). -/
theorem exists_rightColumn_iff {n x : Nat} (hodd : n % 2 = 1) (hn : 7 ≤ n) (hx : x < n) :
    (∃ r ∈ rightColumns n (n - 1), x = r ∨ x = r - 1) ↔ x ≠ 6 := by
  simp only [rightColumns_eq_zigzagRight hodd hn, List.mem_map, List.mem_range,
    exists_exists_and_eq_and]
  constructor
  · rintro ⟨i, hi, hcol⟩
    unfold zigzagRight at hcol
    split at hcol <;> omega
  · intro h6
    by_cases hleft : x < 6
    · refine ⟨(n - 2 - x) / 2, by omega, ?_⟩
      rw [zigzagRight, if_pos (by omega)]
      omega
    · refine ⟨(n - 1 - x) / 2, by omega, ?_⟩
      rw [zigzagRight, if_neg (by omega)]
      omega

/-- Settles O33: no cell is visited twice, and the visited columns are all but column 6. -/
theorem everyColumnButSixVisitedOnce : Obligations.EveryColumnButSixVisitedOnce := by
  intro n hodd hn x hx y hy
  have hmem : (x, y) ∈ visits n ↔ x ≠ 6 := by
    rw [visits, mem_pairsCells, exists_rightColumn_iff hodd hn hx, and_iff_left hy]
  split
  · rename_i h6
    exact List.count_eq_zero_of_not_mem fun hin => hmem.mp hin h6
  · rename_i h6
    exact List.count_eq_one_of_mem (visits_nodup n) (hmem.mpr h6)

end Sys2Proof.Machine

/-! ## `MASK`: the bound of the penalty, and the candidate that is committed (R123 to R128) -/

namespace Sys2Proof.Machine

theorem runScore_le (r : Nat) : runScore r ≤ r - 2 := by
  unfold runScore
  split <;> omega

/-- The score of what is left of a row, its current run of `run` cells included (R127). -/
theorem scanRow_le (prev : Bool) {run : Nat} (hrun : 1 ≤ run) (rest : List Bool) :
    scanRow prev run rest ≤ run + rest.length - 2 := by
  induction rest generalizing prev run with
  | nil => exact runScore_le run
  | cons b rest ih =>
    rw [scanRow, List.length_cons]
    split
    · have hsame := ih prev (run := run + 1) (by omega)
      omega
    · have hhead := runScore_le run
      have htail := ih b (run := 1) (by decide)
      omega

theorem rowScore_le (row : List Bool) : rowScore row ≤ row.length - 2 := by
  cases row with
  | nil => exact Nat.zero_le _
  | cons b rest =>
    have h := scanRow_le b (Nat.le_refl 1) rest
    rw [rowScore, List.length_cons]
    omega

theorem penalty_le (free : Nat → Bool) (n : Nat) (g : Grid) : penalty free n g ≤ n * (n - 2) := by
  have hrow : ∀ score ∈ (List.range n).map fun y => rowScore (gridRow free n g y),
      score ≤ n - 2 := by
    intro score hscore
    obtain ⟨y, -, rfl⟩ := List.mem_map.mp hscore
    simpa [gridRow] using rowScore_le (gridRow free n g y)
  simpa [penalty] using List.sum_le_card_nsmul _ _ hrow

/-- Settles O39: no row scores more than `n - 2`, and the bound grows with the side. -/
theorem penaltyAtMostRowsTimesWidthLessTwo : Obligations.PenaltyAtMostRowsTimesWidthLessTwo := by
  intro free n g
  refine ⟨penalty_le free n g, fun hn => (penalty_le free n g).trans ?_⟩
  calc n * (n - 2) ≤ 57 * 55 := Nat.mul_le_mul hn (by omega)
    _ = 3135 := rfl

/-- Scoring a masked grid in place is scoring a copy with the free cells XORed (R123, R128). -/
theorem State.penalty_applyMask (s : State) (hn : s.size.toNat ≤ 57) (m : Nat) :
    penalty (Config.freeMg s.epoch) s.size.toNat
      (applyMask s.fgAt (Config.freeMg s.epoch) s.size.toNat m s.mg) = s.candidatePenalty m := by
  unfold penalty State.candidatePenalty
  congr 1
  refine List.map_congr_left fun y hy => congrArg rowScore (List.map_congr_left fun x hx => ?_)
  rw [List.mem_range] at hx hy
  rw [applyMask_read _ _ hn m _ (by omega), decide_eq_true ⟨hx, hy⟩, Bool.true_and]
  rfl

/-- The trials leave every cell as it was and choose the least index of the least penalty (R122,
R124). -/
theorem State.trials_spec (s : State) (hn : s.size.toNat ≤ 57) :
    (∀ x < 57, ∀ y, s.trials.1.read (Config.freeMg s.epoch) x y = s.mgAt x y) ∧
    BestOf s.candidatePenalty 8 s.trials.2 := by
  have hspec := tryMasks_spec s.fgAt (Config.freeMg s.epoch) hn s.mg 8 0 s.mg none
    (fun _ _ _ => rfl) rfl
  simp only [s.penalty_applyMask hn, Nat.zero_add, ← List.range_eq_range'] at hspec
  exact hspec

theorem bestIndex_of_bestOf {pen : Nat → Nat} {k : Nat} {best : Option (Nat × Nat)} (hk : 0 < k)
    (h : BestOf pen k best) :
    bestIndex best < k ∧ (∀ m < k, pen (bestIndex best) ≤ pen m) ∧
      ∀ m < bestIndex best, pen (bestIndex best) < pen m := by
  cases best with
  | none => exact absurd h hk.ne'
  | some p =>
    obtain ⟨hpen, hlt, hmin, hfirst⟩ := h
    rw [hpen] at hmin hfirst
    exact ⟨hlt, hmin, hfirst⟩

/-- Settles O40: the trials restore the grid, so the commit toggles the cells of the least
candidate. -/
theorem maskCommitsLeastPenaltyCandidate : Obligations.MaskCommitsLeastPenaltyCandidate := by
  intro s hn
  obtain ⟨hrestored, hbest⟩ := s.trials_spec hn
  obtain ⟨hlt, hmin, hfirst⟩ := bestIndex_of_bestOf (by decide) hbest
  have hmask : s.masked.mask.toNat = bestIndex s.trials.2 :=
    (BitVec.toNat_ofNat _ 3).trans (Nat.mod_eq_of_lt hlt)
  rw [← hmask] at hmin hfirst
  refine ⟨s.masked, exec_mask_of_size_le hn, rfl, hmin, hfirst, fun x hx y _ => ?_⟩
  have hcell : s.masked.mgAt x y = (s.mgAt x y ^^ (decide (x < s.size.toNat ∧ y < s.size.toNat) &&
      (!s.fgAt x y && maskPred s.masked.mask.toNat x y))) := by
    rw [hmask, ← hrestored x hx y]
    exact applyMask_read _ _ hn _ _ hx
  rw [hcell]
  by_cases htoggle : x < s.size.toNat ∧ y < s.size.toNat ∧ s.fgAt x y = false ∧
      maskPred s.masked.mask.toNat x y = true
  · obtain ⟨hxn, hyn, hfree, hpred⟩ := htoggle
    simp [hxn, hyn, hfree, hpred]
  · rw [if_neg htoggle]
    have hkept : (decide (x < s.size.toNat ∧ y < s.size.toNat) &&
        (!s.fgAt x y && maskPred s.masked.mask.toNat x y)) = false := by
      simpa [← and_assoc] using htoggle
    rw [hkept, Bool.xor_false]

end Sys2Proof.Machine

/-! ## `FORMAT`: what each cell receives, and the cells that receive nothing (R131 to R137) -/

namespace Sys2Proof.Machine

theorem mem_formatWrites_iff {n : Nat} {f : FormatWord} {copy2 : FmtCopy2} {w : CellWrite} :
    w ∈ formatWrites n f copy2 ↔ w ∈ formatCopy1 f ∨ w ∈ formatCopy2 n f copy2 ∨
      w = darkModule n := by
  simp only [formatWrites, List.mem_append, List.mem_singleton, or_assoc]

theorem mem_formatCopy1_iff {f : FormatWord} {w : CellWrite} :
    w ∈ formatCopy1 f ↔ (∃ i : Nat, i < 6 ∧ w = ⟨8, i, formatBit f i⟩) ∨
      w = ⟨8, 7, formatBit f 6⟩ ∨ w = ⟨8, 8, formatBit f 7⟩ ∨ w = ⟨7, 8, formatBit f 8⟩ ∨
      ∃ i : Nat, (9 ≤ i ∧ i ≤ 14) ∧ w = ⟨14 - (i : Int), 8, formatBit f i⟩ := by
  simp only [formatCopy1, List.mem_append, List.mem_map, List.mem_range, List.mem_range'_1,
    List.mem_cons, List.not_mem_nil, or_false, or_assoc, eq_comm (a := w), Nat.lt_succ_iff]

theorem mem_formatCopy2_full_iff {n : Nat} {f : FormatWord} {w : CellWrite} :
    w ∈ formatCopy2 n f .full ↔
      (∃ i : Nat, i < 8 ∧ w = ⟨(n : Int) - 1 - i, 8, formatBit f i⟩) ∨
      ∃ i : Nat, (8 ≤ i ∧ i ≤ 14) ∧ w = ⟨8, (n : Int) - 15 + i, formatBit f i⟩ := by
  simp only [formatCopy2, List.mem_append, List.mem_map, List.mem_range, List.mem_range'_1,
    eq_comm (a := w), Nat.lt_succ_iff]

theorem mem_formatCopy2_literal_iff {n : Nat} {f : FormatWord} {w : CellWrite} :
    w ∈ formatCopy2 n f .literal ↔
      ∃ i : Nat, (9 ≤ i ∧ i ≤ 14) ∧ w = ⟨8, (n : Int) - 15 + i, formatBit f i⟩ := by
  simp only [formatCopy2, List.mem_map, List.mem_range'_1, eq_comm (a := w), Nat.lt_succ_iff]

/-- The literal second copy is a part of the full one (R134). -/
theorem formatCopy2_subset_full (n : Nat) (f : FormatWord) (copy2 : FmtCopy2) :
    formatCopy2 n f copy2 ⊆ formatCopy2 n f .full := by
  cases copy2 with
  | full => exact List.Subset.refl _
  | literal =>
    intro w hw
    obtain ⟨i, hi, rfl⟩ := mem_formatCopy2_literal_iff.mp hw
    exact mem_formatCopy2_full_iff.mpr (.inr ⟨i, by omega, rfl⟩)

/-- Bits 9 to 14 of the second copy are written for either value of `FMT_COPY2` (R134). -/
theorem bottomLeft_mem_formatCopy2 {n : Nat} (f : FormatWord) (copy2 : FmtCopy2) {i : Nat}
    (hi : 9 ≤ i ∧ i ≤ 14) :
    (⟨8, (n : Int) - 15 + i, formatBit f i⟩ : CellWrite) ∈ formatCopy2 n f copy2 := by
  cases copy2 with
  | full => exact mem_formatCopy2_full_iff.mpr (.inr ⟨i, by omega, rfl⟩)
  | literal => exact mem_formatCopy2_literal_iff.mpr ⟨i, hi, rfl⟩

/-- Bit `i` of the format word has a place in cell `(x, y)` of a grid of side `n`, in the first or
the second copy (R131 to R134). -/
abbrev formatPlace (n i x y : Nat) : Prop :=
  (x = 8 ∧ (i < 6 ∧ y = i ∨ (i = 6 ∨ i = 7) ∧ y = i + 1)) ∨
  (y = 8 ∧ (i = 8 ∧ x = 7 ∨ (9 ≤ i ∧ i ≤ 14) ∧ x + i = 14)) ∨
  (y = 8 ∧ i < 8 ∧ x + i + 1 = n) ∨ (x = 8 ∧ (8 ≤ i ∧ i ≤ 14) ∧ y + 15 = n + i)

section
variable {n : Nat} (hn : 21 ≤ n) {f : FormatWord} {copy2 : FmtCopy2} {w : CellWrite} {x y : Nat}
  (hw : w ∈ formatWrites n f copy2) (hx : w.x = x) (hy : w.y = y)

include hw hx hy in
/-- Every write of `FORMAT` is the dark module or a bit of the word in one of its places. -/
theorem formatWrite_place :
    (w.bit = true ∧ x = 8 ∧ y + 8 = n) ∨ ∃ i, w.bit = formatBit f i ∧ formatPlace n i x y := by
  obtain hw | hw | rfl := mem_formatWrites_iff.mp hw
  · right
    obtain ⟨i, hi, rfl⟩ | rfl | rfl | rfl | ⟨i, hi, rfl⟩ := mem_formatCopy1_iff.mp hw <;>
      simp only at hx hy
    · exact ⟨i, rfl, by omega⟩
    · exact ⟨6, rfl, by omega⟩
    · exact ⟨7, rfl, by omega⟩
    · exact ⟨8, rfl, by omega⟩
    · exact ⟨i, rfl, by omega⟩
  · right
    obtain ⟨i, hi, rfl⟩ | ⟨i, hi, rfl⟩ :=
      mem_formatCopy2_full_iff.mp (formatCopy2_subset_full n f copy2 hw) <;> simp only at hx hy
    · exact ⟨i, rfl, by omega⟩
    · exact ⟨i, rfl, by omega⟩
  · left
    simp only [darkModule] at hx hy
    exact ⟨rfl, by omega, by omega⟩

include hn hw hx hy in
/-- No two bits of the word share a cell, and none is in the cell of the dark module. -/
theorem formatWrites_agree {w' : CellWrite} (hw' : w' ∈ formatWrites n f copy2) (hx' : w'.x = x)
    (hy' : w'.y = y) : w'.bit = w.bit := by
  obtain ⟨hb, hdark⟩ | ⟨i, hb, hi⟩ := formatWrite_place hw hx hy <;>
    obtain ⟨hb', hdark'⟩ | ⟨j, hb', hj⟩ := formatWrite_place hw' hx' hy' <;> rw [hb, hb']
  · omega
  · omega
  · obtain rfl : i = j := by omega
    rfl

include hw hx hy in
/-- The cells written are those the statement names, for the `FMT_COPY2` in force (R137). -/
theorem formatCell_of_formatWrite : formatCell n copy2 x y := by
  unfold formatCell
  obtain hw | hw | rfl := mem_formatWrites_iff.mp hw
  · obtain ⟨i, hi, rfl⟩ | rfl | rfl | rfl | ⟨i, hi, rfl⟩ := mem_formatCopy1_iff.mp hw <;>
      simp only at hx hy <;> omega
  · cases copy2 with
    | full =>
      simp only [true_and]
      obtain ⟨i, hi, rfl⟩ | ⟨i, hi, rfl⟩ := mem_formatCopy2_full_iff.mp hw <;>
        simp only at hx hy <;> omega
    | literal =>
      obtain ⟨i, hi, rfl⟩ := mem_formatCopy2_literal_iff.mp hw
      simp only at hx hy
      omega
  · simp only [darkModule] at hx hy
    omega

end

section
variable {s : State} (hlo : 21 ≤ s.size.toNat) (hhi : s.size.toNat ≤ 57) {x y : Nat}
include hlo hhi

/-- A write of `FORMAT` is what it leaves in the cell. -/
theorem State.formatted_cell {w : CellWrite} (hw : w ∈ s.formatWrites) (hx : w.x = x)
    (hy : w.y = y) : s.formatted.mgAt x y = w.bit ∧ s.formatted.fgAt x y = true := by
  have hws := State.formatWrites_inWindow hlo hhi
  have hin := List.all_eq_true.mp hws w hw
  rw [CellWrite.inWindow_iff] at hin
  have hmg := s.setfAll_mgAt hws (x := x) (y := y) (by omega)
  have hfg := s.setfAll_fgAt hws (x := x) (y := y) (by omega)
  have hlast : lastWrite s.formatWrites x y = some w.bit :=
    lastWrite_eq_of_all (fun _ => formatWrites_agree hlo hw hx hy) ⟨w, hw, hx, hy⟩
  rw [hlast, Option.getD_some] at hmg
  rw [decide_eq_true ⟨w, hw, hx, hy⟩, Bool.true_or] at hfg
  rw [State.formatted, State.drawn_mgAt, State.drawn_fgAt]
  exact ⟨hmg, hfg⟩

theorem State.formatted_cell_other (hx : x < 57)
    (hnot : ¬formatCell s.size.toNat s.config.fmtCopy2 x y) :
    s.formatted.mgAt x y = s.mgAt x y ∧ s.formatted.fgAt x y = s.fgAt x y := by
  have hws := State.formatWrites_inWindow hlo hhi
  have hnone : ∀ w ∈ s.formatWrites, ¬(w.x = x ∧ w.y = y) :=
    fun w hw hxy => hnot (formatCell_of_formatWrite hw hxy.1 hxy.2)
  have hmg := s.setfAll_mgAt hws (y := y) hx
  have hfg := s.setfAll_fgAt hws (y := y) hx
  rw [lastWrite_eq_none.mpr hnone, Option.getD_none] at hmg
  rw [decide_eq_false fun ⟨w, hw, hxy⟩ => hnone w hw hxy, Bool.false_or] at hfg
  rw [State.formatted, State.drawn_mgAt, State.drawn_fgAt]
  exact ⟨hmg, hfg⟩

end

/-- Settles O41: each clause names a write of `FORMAT` and the cell it falls in. -/
theorem formatWritesWordTwiceAndDarkModule : Obligations.FormatWritesWordTwiceAndDarkModule := by
  rintro s n f rfl hlo hhi rfl
  have hcell {x y : Nat} {w : CellWrite} (hw : w ∈ s.formatWrites) (hx : w.x = x) (hy : w.y = y) :=
    State.formatted_cell hlo hhi hw hx hy
  have hcopy1 {w : CellWrite} (hw : w ∈ formatCopy1 (fmtAt s.config s.level s.mask)) :
      w ∈ s.formatWrites := mem_formatWrites_iff.mpr (.inl hw)
  have hcopy2 {w : CellWrite} (hw : w ∈ formatCopy2 s.size.toNat
      (fmtAt s.config s.level s.mask) s.config.fmtCopy2) : w ∈ s.formatWrites :=
    mem_formatWrites_iff.mpr (.inr (.inl hw))
  refine ⟨s.formatted, exec_format_of_size hlo hhi, fun i hi => ?_, ?_, ?_, ?_,
    fun i h9 h14 => ?_, fun i h9 h14 => ?_, fun hfull => ⟨fun i hi => ?_, ?_⟩, ?_⟩
  · exact hcell (hcopy1 (mem_formatCopy1_iff.mpr (.inl ⟨i, hi, rfl⟩))) rfl rfl
  · exact hcell (hcopy1 (mem_formatCopy1_iff.mpr (.inr (.inl rfl)))) rfl rfl
  · exact hcell (hcopy1 (mem_formatCopy1_iff.mpr (.inr (.inr (.inl rfl))))) rfl rfl
  · exact hcell (hcopy1 (mem_formatCopy1_iff.mpr (.inr (.inr (.inr (.inl rfl)))))) rfl rfl
  · exact hcell (hcopy1 (mem_formatCopy1_iff.mpr (.inr (.inr (.inr (.inr ⟨i, ⟨h9, h14⟩, rfl⟩))))))
      (by simp only; omega) rfl
  · exact hcell (hcopy2 (bottomLeft_mem_formatCopy2 _ _ ⟨h9, h14⟩)) rfl (by simp only; omega)
  · rw [hfull] at hcopy2
    exact hcell (hcopy2 (mem_formatCopy2_full_iff.mpr (.inl ⟨i, hi, rfl⟩)))
      (by simp only; omega) rfl
  · rw [hfull] at hcopy2
    exact hcell (hcopy2 (mem_formatCopy2_full_iff.mpr (.inr ⟨8, by decide, rfl⟩))) rfl
      (by simp only; omega)
  · exact hcell (w := darkModule s.size.toNat) (mem_formatWrites_iff.mpr (.inr (.inr rfl))) rfl
      (by simp only [darkModule]; omega)

/-- Settles O42: no write of `FORMAT` falls in another cell. -/
theorem formatLeavesOtherCells : Obligations.FormatLeavesOtherCells := fun s hlo hhi =>
  ⟨s.formatted, exec_format_of_size hlo hhi, s.drawn_frame s.formatWrites _,
    fun _ hx _ _ => State.formatted_cell_other hlo hhi hx⟩

end Sys2Proof.Machine
